-- ==== Sys2Proof/Word.lean ====
section
/-! DEFINITION. The one word of this hardware: a byte of a packet (20_memory.md R34, R40). -/

namespace Sys2Proof

/-- One byte of a packet; bit 0 is its least significant bit (20_memory.md R37). -/
abbrev Byte := BitVec 8

end Sys2Proof
end

