-- ==== Sys2Proof/Config.lean ====
section
/-! DEFINITION. What is fixed for one machine: the three parameters the spec leaves open (00_scope.md R9). The numbers
and port widths the spec fixes (R7, R8) stand in the types that have them: 5-bit configuration code, 32 ROM entries, 5
bandwidths, 2-bit frame-count code, 6-bit count (Syntax.lean, Machine/Tables.lean), the output ports
(Machine/Flags.lean). No response carries a value the spec leaves open, so there is no free value. -/

namespace Sys2Proof.Config

/-- The parameters the model takes as arguments and settles no value for (00_scope.md R9). No response depends on any of
them: a statement that speaks of one holds for every `Params` that is well formed (`Params.wf`). -/
structure Params where
  /-- `LEN_W`, the width of the hardware packet-length input (R9, D2). -/
  lenW : Nat
  /-- `LATENCY`, from a stable request to a stable response, in any unit (R9, R107). -/
  latency : Nat
  /-- `NUM_DECODERS`, the decoder instances that share one ROM (R9, R100). -/
  numDecoders : Nat
  deriving DecidableEq, Repr

end Sys2Proof.Config
end

