-- ==== Sys2Proof/Syntax.lean ====
section
/-! DEFINITION. The instructions: the packet headers of 30_encoding.md, one constructor per row of opcode_table.json. -/

namespace Sys2Proof

/-- Format `COUNT`, the frame-count byte of a code-3 header (30_encoding.md R48). -/
structure CountByte where
  /-- Bits 7..6, which the block ignores (R58); kept so that encoding loses nothing. -/
  hi : BitVec 2
  /-- Bits 5..0, the explicit frame count (R53). -/
  count : BitVec 6
  deriving DecidableEq, Repr

/-- One packet header, the "instruction" of this block (30_encoding.md R49, R54). `cfg` is the configuration code
(R50), `stereo` the stereo bit (R51). -/
inductive Instr where
  /-- `TOC_CODE0`, `fffffs00` (R73). -/
  | tocCode0 (cfg : BitVec 5) (stereo : Bool)
  /-- `TOC_CODE1`, `fffffs01` (R74). -/
  | tocCode1 (cfg : BitVec 5) (stereo : Bool)
  /-- `TOC_CODE2`, `fffffs10` (R75). -/
  | tocCode2 (cfg : BitVec 5) (stereo : Bool)
  /-- `TOC_CODE3`, `fffffs11` then `xxnnnnnn` (R77). `countByte` is `none` when the packet ends after the TOC byte
  (`pkt_len = 1`), the form that R77 answers with `TooShort`. DEDUCED, safe: log entry 12. -/
  | tocCode3 (cfg : BitVec 5) (stereo : Bool) (countByte : Option CountByte)
  deriving DecidableEq, Repr

/-- The configuration code of a header (R50). -/
def Instr.cfg : Instr → BitVec 5
  | .tocCode0 cfg _ => cfg
  | .tocCode1 cfg _ => cfg
  | .tocCode2 cfg _ => cfg
  | .tocCode3 cfg _ _ => cfg

/-- The stereo flag of a header (R51). -/
def Instr.stereo : Instr → Bool
  | .tocCode0 _ stereo => stereo
  | .tocCode1 _ stereo => stereo
  | .tocCode2 _ stereo => stereo
  | .tocCode3 _ stereo _ => stereo

/-- The frame-count code `c` that selects the operation (R52, R54). -/
def Instr.code : Instr → BitVec 2
  | .tocCode0 _ _ => 0#2
  | .tocCode1 _ _ => 1#2
  | .tocCode2 _ _ => 2#2
  | .tocCode3 _ _ _ => 3#2

/-- The length in bytes of the whole header (R49). -/
def Instr.headerBytes : Instr → Nat
  | .tocCode0 _ _ => 1
  | .tocCode1 _ _ => 1
  | .tocCode2 _ _ => 1
  | .tocCode3 _ _ _ => 2

end Sys2Proof
end

