-- ==== Sys2Proof/WellFormed.lean ====
section
/-! DEFINITION. Which headers are whole, and which parameters are allowed. Operand fields have the widths the spec
gives them and every value of each is legal (30_encoding.md R56), so the one check on a header is that it is whole. -/

namespace Sys2Proof

/-- A header is well formed when none of its bytes is missing (30_encoding.md R49: a code-3 header is 2 bytes). A
truncated code-3 header still decodes and runs: R77 answers it with `TooShort`. -/
def Instr.wf : Instr → Bool
  | .tocCode0 _ _ => true
  | .tocCode1 _ _ => true
  | .tocCode2 _ _ => true
  | .tocCode3 _ _ countByte => countByte.isSome

/-- The constraints of 00_scope.md R9: `LEN_W` is at least 2, `NUM_DECODERS` at least 1, `LATENCY` is free. -/
def Config.Params.wf (p : Config.Params) : Bool :=
  decide (2 ≤ p.lenW) && decide (1 ≤ p.numDecoders)

end Sys2Proof
end

