-- ==== Sys2Proof/Decode.lean ====
section
/-! DEFINITION. From header bytes to an instruction and back (30_encoding.md): the fields, the decoder, total on any
bytes, the encoder, and the host's view of a row of opcode_table.json. -/

namespace Sys2Proof

/-- `byte0[7:3]` (R50). -/
def cfgField (b : Byte) : BitVec 5 := b.extractLsb' 3 5

/-- `byte0[2] = 1` (R51). -/
def stereoField (b : Byte) : Bool := b.getLsbD 2

/-- `byte0[1:0]` (R52). -/
def codeField (b : Byte) : BitVec 2 := b.extractLsb' 0 2

/-- `byte1[5:0]` (R53). -/
def countField (b : Byte) : BitVec 6 := b.extractLsb' 0 6

/-- `byte1[7:6]`, ignored by the block (R58). -/
def hiField (b : Byte) : BitVec 2 := b.extractLsb' 6 2

/-- The frame-count byte taken apart (R48). -/
def countByteOf (b : Byte) : CountByte := { hi := hiField b, count := countField b }

/-- Why bytes select no operation. -/
inductive Reject where
  /-- There is no TOC byte (R55); the machine answers the request with `TooShort`. Safe: the spec says so. -/
  | noTocByte
  deriving DecidableEq, Repr

/-- The result of decoding: an instruction and the bytes after its header, or a rejection by name. -/
inductive Decoded where
  | instr (i : Instr) (rest : List Byte)
  | rejected (why : Reject)
  deriving DecidableEq, Repr

/-- Decode the header at the head of `bytes`, the opcode map of R54. The TOC byte alone tells the header's length
(R49). A code-3 header whose second byte is not there decodes to the truncated form. -/
def decode (bytes : List Byte) : Decoded :=
  match bytes with
  | [] => .rejected .noTocByte
  | b0 :: rest =>
    if codeField b0 = 0#2 then .instr (.tocCode0 (cfgField b0) (stereoField b0)) rest
    else if codeField b0 = 1#2 then .instr (.tocCode1 (cfgField b0) (stereoField b0)) rest
    else if codeField b0 = 2#2 then .instr (.tocCode2 (cfgField b0) (stereoField b0)) rest
    else
      match rest with
      | [] => .instr (.tocCode3 (cfgField b0) (stereoField b0) none) []
      | b1 :: rest' => .instr (.tocCode3 (cfgField b0) (stereoField b0) (some (countByteOf b1))) rest'

/-- A TOC byte from its fields, `(cfg << 3) | (s << 2) | c` of R60. -/
def tocByte (cfg : BitVec 5) (stereo : Bool) (c : BitVec 2) : Byte :=
  cfg ++ BitVec.ofBool stereo ++ c

/-- A frame-count byte from its fields, `(hi << 6) | count` of R60. -/
def CountByte.byte (b : CountByte) : Byte := b.hi ++ b.count

/-- The bytes of a header (R54, R60). The truncated code-3 form is its TOC byte alone. -/
def encode : Instr → List Byte
  | .tocCode0 cfg stereo => [tocByte cfg stereo 0#2]
  | .tocCode1 cfg stereo => [tocByte cfg stereo 1#2]
  | .tocCode2 cfg stereo => [tocByte cfg stereo 2#2]
  | .tocCode3 cfg stereo none => [tocByte cfg stereo 3#2]
  | .tocCode3 cfg stereo (some b) => [tocByte cfg stereo 3#2, b.byte]

/-- The two bytes that a row of opcode_table.json stands for: its first `nbits` bits from `w`, bits above them 0, up to
the longest header (2 bytes). The first byte is bits 7..0 and lies at packet index 0. -/
def tableBytes (nbits w : Nat) : List Byte :=
  [BitVec.ofNat 8 (w % 2 ^ nbits), BitVec.ofNat 8 (w % 2 ^ nbits / 256)]

/-- What the decoder reads from a table row's bits. -/
def decodeTableWord (nbits w : Nat) : Option Instr :=
  match decode (tableBytes nbits w) with
  | .instr i _ => some i
  | .rejected _ => none

end Sys2Proof
end

