-- ==== Sys2Proof/Machine/Tables.lean ====
section
/-! DEFINITION. The two constant tables, the only storage elements of the block (10_state.md R15): their entry types,
their contents (40_config_rom.md R61, R63), the ROM word layout (R68) and the closed form (R65). -/

namespace Sys2Proof.Machine

/-- The three codec modes (00_scope.md R7, 10_state.md R23). -/
inductive Codec where
  | silk
  | celt
  | hybrid
  deriving DecidableEq, Repr

/-- The five bandwidths, by the names of 40_config_rom.md R61. The indices 5 to 7 do not exist (10_state.md R25). -/
inductive BwIdx where
  | nb
  | mb
  | wb
  | swb
  | fb
  deriving DecidableEq, Repr

/-- One Bandwidth constant (40_config_rom.md R61). -/
structure Bandwidth where
  /-- `bandwidthCode`, an integer classification. -/
  bandwidthCode : BitVec 5
  /-- `sampleRateKHz`, in kHz. -/
  sampleRateKHz : BitVec 6
  deriving DecidableEq, Repr

/-- One word of the ConfigTable ROM by its fields (40_config_rom.md R68). The bandwidth is stored as an index (R62). -/
structure RomEntry where
  codec : Codec
  /-- frameDuration in microseconds. -/
  frameDurUs : BitVec 16
  bwIdx : BwIdx
  deriving DecidableEq, Repr

/-- What `RomRead` returns, the spec's `Config` (40_config_rom.md R69): the bandwidth by its value, beside the index it
was read through, which the port `bw_idx` shows (10_state.md R25). DESIGN CHOICE, safe: log entry 13. -/
structure CodecConfig where
  codec : Codec
  /-- frameDuration in microseconds. -/
  frameDuration : BitVec 16
  bwIdx : BwIdx
  bandwidth : Bandwidth
  deriving DecidableEq, Repr

/-- The port code of a codec (10_state.md R23). -/
def Codec.code : Codec → BitVec 2
  | .silk => 0b00
  | .celt => 0b01
  | .hybrid => 0b10

/-- The row of the Bandwidth table that a `bw_idx` names (40_config_rom.md R61). -/
def BwIdx.row : BwIdx → Fin 5
  | .nb => 0
  | .mb => 1
  | .wb => 2
  | .swb => 3
  | .fb => 4

/-- The port code of a bandwidth index (10_state.md R25). -/
def BwIdx.code : BwIdx → BitVec 3
  | .nb => 0
  | .mb => 1
  | .wb => 2
  | .swb => 3
  | .fb => 4

/-- The contents of the Bandwidth constant table (40_config_rom.md R61). -/
def bandwidthContents : Vector Bandwidth 5 :=
  #v[⟨4, 8⟩, ⟨6, 12⟩, ⟨8, 16⟩, ⟨12, 24⟩, ⟨20, 48⟩]

/-- The contents of the ConfigTable ROM, entry by entry (40_config_rom.md R63). -/
def configRomContents : Vector RomEntry 32 :=
  #v[⟨.silk, 10000, .nb⟩, ⟨.silk, 20000, .nb⟩, ⟨.silk, 40000, .nb⟩, ⟨.silk, 60000, .nb⟩,
     ⟨.silk, 10000, .mb⟩, ⟨.silk, 20000, .mb⟩, ⟨.silk, 40000, .mb⟩, ⟨.silk, 60000, .mb⟩,
     ⟨.silk, 10000, .wb⟩, ⟨.silk, 20000, .wb⟩, ⟨.silk, 40000, .wb⟩, ⟨.silk, 60000, .wb⟩,
     ⟨.hybrid, 10000, .swb⟩, ⟨.hybrid, 20000, .swb⟩, ⟨.hybrid, 10000, .fb⟩, ⟨.hybrid, 20000, .fb⟩,
     ⟨.celt, 2500, .nb⟩, ⟨.celt, 5000, .nb⟩, ⟨.celt, 10000, .nb⟩, ⟨.celt, 20000, .nb⟩,
     ⟨.celt, 2500, .wb⟩, ⟨.celt, 5000, .wb⟩, ⟨.celt, 10000, .wb⟩, ⟨.celt, 20000, .wb⟩,
     ⟨.celt, 2500, .swb⟩, ⟨.celt, 5000, .swb⟩, ⟨.celt, 10000, .swb⟩, ⟨.celt, 20000, .swb⟩,
     ⟨.celt, 2500, .fb⟩, ⟨.celt, 5000, .fb⟩, ⟨.celt, 10000, .fb⟩, ⟨.celt, 20000, .fb⟩]

/-- `RomRead(k)` of 40_config_rom.md R69 over given table contents: one whole ROM entry, then the Bandwidth constant
its index names. Total on the 5-bit index (R67). -/
def romLookup (rom : Vector RomEntry 32) (bw : Vector Bandwidth 5)
    (k : BitVec 5) : CodecConfig :=
  let w := rom[k.toNat]'k.isLt
  { codec := w.codec, frameDuration := w.frameDurUs, bwIdx := w.bwIdx, bandwidth := bw[w.bwIdx.row] }

/-- The 21-bit ROM word of an entry: `frame_dur_us` in bits 20..5, `bw_idx` in 4..2, `codec` in 1..0
(40_config_rom.md R68). Not observable at any port: log entry 6. -/
def RomEntry.word (e : RomEntry) : BitVec 21 :=
  e.frameDurUs ++ e.bwIdx.code ++ e.codec.code

/-- A bandwidth's index from its port code; the codes 5 to 7 are never driven (10_state.md R25). -/
def bwIdxOfCode (c : BitVec 3) : Option BwIdx :=
  if c = 0#3 then some .nb else if c = 1#3 then some .mb else if c = 2#3 then some .wb
  else if c = 3#3 then some .swb else if c = 4#3 then some .fb else none

/-- A codec from its port code; the code `0b11` is never driven (10_state.md R23). -/
def codecOfCode (c : BitVec 2) : Option Codec :=
  if c = 0#2 then some .silk else if c = 1#2 then some .celt else if c = 2#2 then some .hybrid else none

/-- An entry from its 21-bit ROM word (40_config_rom.md R68); `none` for a word that holds a code never driven. -/
def romEntryOfWord (w : BitVec 21) : Option RomEntry :=
  match codecOfCode (w.extractLsb' 0 2), bwIdxOfCode (w.extractLsb' 2 3) with
  | some c, some b => some { codec := c, frameDurUs := w.extractLsb' 5 16, bwIdx := b }
  | _, _ => none

/-- The durations of a SILK group, by `k[1:0]` (40_config_rom.md R65). -/
def silkDuration (q : BitVec 2) : BitVec 16 :=
  if q = 0#2 then 10000 else if q = 1#2 then 20000 else if q = 2#2 then 40000 else 60000

/-- The durations of a CELT group, by `k[1:0]` (40_config_rom.md R65). -/
def celtDuration (q : BitVec 2) : BitVec 16 :=
  if q = 0#2 then 2500 else if q = 1#2 then 5000 else if q = 2#2 then 10000 else 20000

/-- The closed form of the ROM over `k`, 40_config_rom.md R65. The machine reads the table, not this form. -/
def romClosedForm (k : BitVec 5) : RomEntry :=
  if k.toNat < 12 then
    { codec := .silk
      frameDurUs := silkDuration (k.extractLsb' 0 2)
      bwIdx :=
        if k.extractLsb' 2 2 = 0#2 then .nb
        else if k.extractLsb' 2 2 = 1#2 then .mb
        else .wb }
  else if k.toNat < 16 then
    { codec := .hybrid
      frameDurUs := if k.getLsbD 0 then 20000 else 10000
      bwIdx := if k.getLsbD 1 then .fb else .swb }
  else
    { codec := .celt
      frameDurUs := celtDuration (k.extractLsb' 0 2)
      bwIdx :=
        if k.extractLsb' 2 2 = 0#2 then .nb
        else if k.extractLsb' 2 2 = 1#2 then .wb
        else if k.extractLsb' 2 2 = 2#2 then .swb
        else .fb }

end Sys2Proof.Machine
end

