-- ==== Sys2Proof/Machine/State.lean ====
section
/-! DEFINITION. The state as plain data: the two constant tables (10_state.md R15), the requests the host presents
(R20), the responses given (R21); the reasons a step can stop; the state after reset (70_reset_and_hazards.md R103). -/

namespace Sys2Proof.Machine

/-- The bytes of a packet by index (20_memory.md R34), in ONE canonical form: indices strictly rising, and no cell
holding `0x00`, which is what an unlisted index reads as. Every packet is such a list. DESIGN CHOICE: log entry 3. -/
abbrev Memory := List Host.Cell

/-- One request (10_state.md R20, 00_scope.md R12). The ports `byte0` and `byte1` show indices 0 and 1 of `packet`. -/
structure Request where
  /-- `pkt_len`, the number of bytes in the packet, an unbounded natural (R9). -/
  pktLen : Nat
  /-- The packet address space (R34, R42). What it holds at an index from `pktLen` on is a don't-care (R20): any value
  may stand there and no response depends on it (R80). Log entry 4. -/
  packet : Memory
  deriving DecidableEq, Repr

/-- The two errors a response may carry (60_exceptions.md R88). They are values, not traps (R92). -/
inductive DecodeError where
  /-- R89. -/
  | tooShort
  /-- R90. -/
  | invalidFrameCount
  deriving DecidableEq, Repr

/-- The success result (10_state.md R21). -/
structure Header where
  config : CodecConfig
  /-- 1 to 63 in every response given (R27). -/
  numFrames : BitVec 6
  stereo : Bool
  deriving DecidableEq, Repr

/-- One response (10_state.md R21). An error carries no header and no header port (R30, 41_toc_decode.md R72): log
entry 5. -/
inductive Response where
  | ok (h : Header)
  | err (e : DecodeError)
  deriving DecidableEq, Repr

/-- What a step can stop with: nothing. The block has no trap, no fault and no stuck state (60_exceptions.md R88, R92,
41_toc_decode.md R81), so the type has no constructor: no step can answer a fault. Safe: log entry 14. -/
inductive Fault where
  deriving DecidableEq, Repr

/-- What a step can refuse with. -/
inductive Refusal where
  /-- An arm of `exec` that has no meaning yet. Raised by nobody in this model: all four rows have their meaning. Safe. -/
  | notModelled (mnemonic : String)
  deriving DecidableEq, Repr

/-- The machine. The tables are the block's only storage (10_state.md R15). The two lists are the MODEL's own: they hold
what the host presents and what it has been answered, the program and the end state of 70_reset_and_hazards.md R106,
and no response depends on what they held before (R14). DESIGN CHOICE, safe: log entries 1 and 7. -/
structure State where
  /-- The ConfigTable ROM (R15, 40_config_rom.md R63). -/
  configRom : Vector RomEntry 32
  /-- The Bandwidth constant table (R15, 40_config_rom.md R61). -/
  bandwidthTable : Vector Bandwidth 5
  /-- The requests still to be answered; the head is the one on the input ports. -/
  pending : List Request
  /-- The responses given, oldest first; the last is the one on the output ports. -/
  responses : List Response
  deriving DecidableEq, Repr

/-- After reset: both tables hold their constants (10_state.md R19, 70_reset_and_hazards.md R103), no request has been
presented and no response given (R103; DESIGN CHOICE of the empty lists, log entry 1). -/
def State.reset : State :=
  { configRom := configRomContents
    bandwidthTable := bandwidthContents
    pending := []
    responses := [] }

end Sys2Proof.Machine
end

