-- ==== Sys2Proof/Machine/Ops.lean ====
section
/-! DEFINITION. The named operations: reading and laying out a packet's bytes, `PktRead` and `RomRead` (00_scope.md
R11), ending a transaction with a response, and `raise`. -/

namespace Sys2Proof.Machine

/-- What an index that no cell lists reads as. -/
def unlistedByte : Byte := 0x00

/-- The byte at an index. -/
def Memory.read (m : Memory) (a : Nat) : Byte :=
  match m with
  | [] => unlistedByte
  | (k, b) :: rest => if a = k then b else Memory.read rest a

/-- Put a cell before a tail whose indices are all higher; a cell that holds the unlisted value is left out. -/
def Memory.cons (a : Nat) (b : Byte) (m : Memory) : Memory :=
  if b = unlistedByte then m else (a, b) :: m

/-- Lay a byte at an index, keeping the canonical form. Used by the host, when it lays out a packet; the block writes
no memory (20_memory.md R35). -/
def Memory.write (m : Memory) (a : Nat) (b : Byte) : Memory :=
  match m with
  | [] => Memory.cons a b []
  | (k, c) :: rest =>
    if a < k then Memory.cons a b ((k, c) :: rest)
    else if a = k then Memory.cons a b rest
    else (k, c) :: Memory.write rest a b

/-- Every listed index is at least `lo`, indices strictly rise, and no cell holds the unlisted value. -/
def Memory.wfFrom (m : Memory) (lo : Nat) : Bool :=
  match m with
  | [] => true
  | (k, b) :: rest => decide (lo ≤ k) && decide (b ≠ unlistedByte) && Memory.wfFrom rest (k + 1)

/-- The canonical form. -/
def Memory.wf (m : Memory) : Bool := Memory.wfFrom m 0

/-- The packet space that holds `bytes` from index `a` on. -/
def packetFrom (a : Nat) (bytes : List Byte) : Memory :=
  match bytes with
  | [] => []
  | b :: rest => Memory.write (packetFrom (a + 1) rest) a b

/-- The request that presents a packet of exactly these bytes, `PKT len=<n> [...]` of 30_encoding.md R60. -/
def Request.ofBytes (bytes : List Byte) : Request :=
  { pktLen := bytes.length, packet := packetFrom 0 bytes }

/-- `PktRead(i)` (00_scope.md R11): defined only for `i < pkt_len`. -/
def Request.pktRead (r : Request) (i : Nat) : Option Byte :=
  if i < r.pktLen then some (Memory.read r.packet i) else none

/-- `RomRead(k)` on this machine's tables (40_config_rom.md R69). -/
def State.romRead (s : State) (k : BitVec 5) : CodecConfig :=
  romLookup s.configRom s.bandwidthTable k

/-- The Bandwidth constant at an index (40_config_rom.md R61). -/
def State.bandwidth (s : State) (i : BwIdx) : Bandwidth := s.bandwidthTable[i.row]

/-- The request on the input ports. -/
def State.current (s : State) : Option Request := s.pending.head?

/-- End the current transaction with a response (70_reset_and_hazards.md R106): the request leaves the input ports, the
response is given, the tables stay (20_memory.md R35). -/
def State.finish (s : State) (a : Response) : State :=
  { s with pending := s.pending.tail, responses := s.responses ++ [a] }

/-- `return Ok(h)` (00_scope.md R11). -/
def returnOk (h : Header) (s : State) : Host.Outcome State Fault Refusal :=
  .next (s.finish (.ok h))

/-- `raise E` (00_scope.md R11): this hardware's one way of reporting an error. The transaction ends with the response
`Err(E)` and no header; no state is saved, no handler entered, and the next request is decoded as any other
(60_exceptions.md R92, R93). There is no return from it (R93). -/
def raise (e : DecodeError) (s : State) : Host.Outcome State Fault Refusal :=
  .next (s.finish (.err e))

/-- With no request presented nothing happens. DESIGN CHOICE, safe: log entry 2. -/
def idle (s : State) : Host.Outcome State Fault Refusal := .next s

end Sys2Proof.Machine
end

