-- ==== Sys2Proof/Machine/Operands.lean ====
section
/-! DEFINITION. How operands reach the decoder: the input ports (10_state.md R20), the packet bytes a transaction reads
(20_memory.md R36) and a length input of a given width (00_scope.md R9). -/

namespace Sys2Proof.Machine

/-- The port `byte0`: index 0 of the packet space, meaningful when `pkt_len >= 1` (R20). -/
def Request.byte0 (r : Request) : Byte := Memory.read r.packet 0

/-- The port `byte1`: index 1 of the packet space, meaningful when `pkt_len >= 2` (R20). -/
def Request.byte1 (r : Request) : Byte := Memory.read r.packet 1

/-- The header bytes a transaction reads (20_memory.md R36): index 0 when `pkt_len >= 1`; index 1 only when
`pkt_len >= 2` and the frame-count code is 3; no other index, ever. -/
def Request.fetch (r : Request) : List Byte :=
  match r.pktRead 0 with
  | none => []
  | some b0 =>
    if codeField b0 = 3#2 then
      match r.pktRead 1 with
      | none => [b0]
      | some b1 => [b0, b1]
    else [b0]

/-- What a length input `w` bits wide shows of a length: the length, or the input's largest value where it does not
fit. With `w >= 2` it reports 0, 1 and "2 or more" correctly, as 41_toc_decode.md R80 asks. -/
def lengthPort (w : Nat) (n : Nat) : BitVec w := BitVec.ofNat w (min n (2 ^ w - 1))

/-- The request as a machine with such a length input sees it. -/
def Request.throughLengthPort (w : Nat) (r : Request) : Request :=
  { r with pktLen := (lengthPort w r.pktLen).toNat }

end Sys2Proof.Machine
end

