-- ==== Sys2Proof/Machine/Toc.lean ====
section
/-! DEFINITION. The meanings of the four operations (41_toc_decode.md R73 to R77), one definition each, and the answer
to a request that selects none of them (R70 step 1). -/

namespace Sys2Proof.Machine

/-- Step 5 of R70, shared by all four: the header of configuration `cfg`, `n` frames and the stereo flag. -/
def returnHeader (cfg : BitVec 5) (stereo : Bool) (n : BitVec 6) (s : State) :
    Host.Outcome State Fault Refusal :=
  returnOk { config := s.romRead cfg, numFrames := n, stereo := stereo } s

/-- `TOC_CODE0`: exactly one frame (R73). -/
def execTocCode0 (cfg : BitVec 5) (stereo : Bool) (s : State) : Host.Outcome State Fault Refusal :=
  returnHeader cfg stereo 1#6 s

/-- `TOC_CODE1`: exactly two frames (R74). -/
def execTocCode1 (cfg : BitVec 5) (stereo : Bool) (s : State) : Host.Outcome State Fault Refusal :=
  returnHeader cfg stereo 2#6 s

/-- `TOC_CODE2`: exactly two frames (R75). -/
def execTocCode2 (cfg : BitVec 5) (stereo : Bool) (s : State) : Host.Outcome State Fault Refusal :=
  returnHeader cfg stereo 2#6 s

/-- `TOC_CODE3`: the explicit frame count (R77). Without a second byte (`pkt_len < 2`) it raises `TooShort`, with a count
of 0 `InvalidFrameCount`; the count has no upper check (R59) and bits 7..6 are ignored (R58). -/
def execTocCode3 (cfg : BitVec 5) (stereo : Bool) (countByte : Option CountByte) (s : State) :
    Host.Outcome State Fault Refusal :=
  match countByte with
  | none => raise .tooShort s
  | some b => if b.count = 0#6 then raise .invalidFrameCount s else returnHeader cfg stereo b.count s

/-- The answer to a request whose bytes select no operation: R70 step 1, R55. -/
def answerRejected (why : Reject) (s : State) : Host.Outcome State Fault Refusal :=
  match why with
  | .noTocByte => raise .tooShort s

/-- `decode(pkt_len, byte0, byte1)` written as R70 writes it, over given tables. `step` does not call it: it is the
reference that `step` is stated to agree with. -/
def decodeHeader (rom : Vector RomEntry 32) (bw : Vector Bandwidth 5)
    (pktLen : Nat) (byte0 byte1 : Byte) : Response :=
  if pktLen = 0 then .err .tooShort
  else
    let c := codeField byte0
    let stereo := stereoField byte0
    let config := romLookup rom bw (cfgField byte0)
    if c = 0#2 then .ok { config := config, numFrames := 1#6, stereo := stereo }
    else if c = 1#2 then .ok { config := config, numFrames := 2#6, stereo := stereo }
    else if c = 2#2 then .ok { config := config, numFrames := 2#6, stereo := stereo }
    else if pktLen < 2 then .err .tooShort
    else if countField byte1 = 0#6 then .err .invalidFrameCount
    else .ok { config := config, numFrames := countField byte1, stereo := stereo }

end Sys2Proof.Machine
end

