-- ==== Sys2Proof/Machine/Dispatch.lean ====
section
/-! DEFINITION. One arm per constructor of `Instr` (30_encoding.md R54). -/

namespace Sys2Proof.Machine

def exec (i : Instr) (s : State) : Host.Outcome State Fault Refusal :=
  match i with
  | .tocCode0 cfg stereo => Sys2Proof.Machine.execTocCode0 cfg stereo s
  | .tocCode1 cfg stereo => Sys2Proof.Machine.execTocCode1 cfg stereo s
  | .tocCode2 cfg stereo => Sys2Proof.Machine.execTocCode2 cfg stereo s
  | .tocCode3 cfg stereo countByte => Sys2Proof.Machine.execTocCode3 cfg stereo countByte s

end Sys2Proof.Machine
end

