-- ==== Sys2Proof/Machine/Step.lean ====
section
/-! DEFINITION. One step, one transaction (00_scope.md R12, 41_toc_decode.md R70). -/

namespace Sys2Proof.Machine

/-- Read the header bytes of the current request, decode them and run the operation they select; a request whose bytes
select none is answered by `answerRejected`, and with no request the machine idles. -/
def step (s : State) : Host.Outcome State Fault Refusal :=
  match s.current with
  | none => idle s
  | some r =>
    match decode r.fetch with
    | .instr i _ => exec i s
    | .rejected why => answerRejected why s

/-- `s` with a packet of the table row's two bytes presented next, before whatever the host has presented already. It
stands for the host's presenting a request, the only way an "instruction" arrives (20_memory.md R46): log entry 2. -/
def State.withFetchWord (s : State) (nbits w : Nat) : State :=
  { s with pending := Request.ofBytes (tableBytes nbits w) :: s.pending }

end Sys2Proof.Machine
end

