-- ==== Sys2Proof/Machine/Duration.lean ====
section
/-! DEFINITION. `FULLDUR`, the derived operation of 42_duration.md. -/

namespace Sys2Proof.Machine

/-- `fullDuration(h)` in microseconds (R83): the exact natural-number product, stated at the 22-bit port width. It never
exceeds the port, so nothing is lost (R31). -/
def Header.fullDuration (h : Header) : BitVec 22 :=
  BitVec.ofNat 22 (h.numFrames.toNat * h.config.frameDuration.toNat)

end Sys2Proof.Machine
end

