-- ==== Sys2Proof/Machine/Flags.lean ====
section
/-! DEFINITION. The output ports of a response (10_state.md R22 to R29, 41_toc_decode.md R79). The block has no
condition codes: its flag-like outputs are `status` and `stereo`, and none is kept (R32). -/

namespace Sys2Proof.Machine

/-- The header ports, part of a response only on success (10_state.md R23 to R30). -/
structure HeaderPorts where
  codec : BitVec 2
  frameDurUs : BitVec 16
  bwIdx : BitVec 3
  bwCode : BitVec 5
  sampleRateKhz : BitVec 6
  numFrames : BitVec 6
  stereo : BitVec 1
  fullDurUs : BitVec 22
  deriving DecidableEq, Repr

/-- The output ports. `header` is `none` on an error: the header ports then carry no value (R30, R85), log entry 5. -/
structure Ports where
  status : BitVec 2
  header : Option HeaderPorts
  deriving DecidableEq, Repr

/-- The status code of an error (R22, 60_exceptions.md R89, R90). -/
def DecodeError.status : DecodeError → BitVec 2
  | .tooShort => 0b01
  | .invalidFrameCount => 0b10

/-- The port `status` of a response (R22). -/
def Response.status : Response → BitVec 2
  | .ok _ => 0b00
  | .err e => e.status

/-- The header ports of a header (41_toc_decode.md R79). -/
def Header.ports (h : Header) : HeaderPorts :=
  { codec := h.config.codec.code
    frameDurUs := h.config.frameDuration
    bwIdx := h.config.bwIdx.code
    bwCode := h.config.bandwidth.bandwidthCode
    sampleRateKhz := h.config.bandwidth.sampleRateKHz
    numFrames := h.numFrames
    stereo := BitVec.ofBool h.stereo
    fullDurUs := h.fullDuration }

/-- The header ports of a response: none on an error (R30, R79). -/
def Response.headerPorts : Response → Option HeaderPorts
  | .ok h => some h.ports
  | .err _ => none

/-- How a response drives the ports (41_toc_decode.md R79). -/
def Response.ports (a : Response) : Ports :=
  { status := a.status, header := a.headerPorts }

/-- What the output ports show: the last response's values, and nothing before any response (70_reset_and_hazards.md
R103). -/
def State.outputs (s : State) : Option Ports := s.responses.getLast?.map Response.ports

end Sys2Proof.Machine
end

