-- ==== Sys2Proof/Safety.lean ====
section
/-! DEFINITION. What statements about runs are made of: the tables hold their constants, a response is one the block
may give, the invariant of every step, and `n` steps in a row. -/

namespace Sys2Proof

open Machine

/-- Both tables hold the constants of 40_config_rom.md R61 and R63 (10_state.md R19). -/
abbrev TablesFixed (s : State) : Prop :=
  s.configRom = configRomContents ∧ s.bandwidthTable = bandwidthContents

/-- A `Config` that some entry of the constant ROM gives (40_config_rom.md R69). -/
abbrev ConfigInRom (c : CodecConfig) : Prop :=
  ∃ k : BitVec 5, c = romLookup configRomContents bandwidthContents k

/-- A response the block may give (10_state.md R21, 41_toc_decode.md R82): an error, or a header whose configuration is
an entry of the ROM and whose frame count is not 0. -/
def Machine.Response.Legal (a : Response) : Prop :=
  match a with
  | .ok h => ConfigInRom h.config ∧ h.numFrames ≠ 0#6
  | .err _ => True

/-- The invariant of every step: the tables hold their constants, every packet waiting is in canonical form, and every
response given is one the block may give. -/
def StateInv (s : State) : Prop :=
  TablesFixed s ∧ (∀ r ∈ s.pending, Memory.wf r.packet = true) ∧ (∀ a ∈ s.responses, a.Legal)

/-- What a transaction over the machine's tables answers, by the reference of 41_toc_decode.md R70. -/
def Machine.State.reference (s : State) (r : Request) : Response :=
  decodeHeader s.configRom s.bandwidthTable r.pktLen r.byte0 r.byte1

/-- The state in which request `r` is on the input ports and `rest` waits behind it. -/
def Machine.State.presenting (s : State) (r : Request) (rest : List Request) : State :=
  { s with pending := r :: rest }

/-- The state after the request presented has been answered with `a` and `rest` waits: both tables as before, the
earlier responses as before, `a` after them (70_reset_and_hazards.md R106, 20_memory.md R35). -/
def Machine.State.answered (s : State) (rest : List Request) (a : Response) : State :=
  { s with pending := rest, responses := s.responses ++ [a] }

/-- One row of the table of 40_config_rom.md R63, in the order of its columns. -/
def configRow (codec : Codec) (frameDuration : BitVec 16) (bwIdx : BwIdx) (bandwidthCode : BitVec 5)
    (sampleRateKHz : BitVec 6) : CodecConfig :=
  { codec := codec, frameDuration := frameDuration, bwIdx := bwIdx, bandwidth := ⟨bandwidthCode, sampleRateKHz⟩ }

/-- Two machines hold the same tables, as instances that share one ROM do (60_exceptions.md R100). -/
abbrev SameTables (s t : State) : Prop :=
  s.configRom = t.configRom ∧ s.bandwidthTable = t.bandwidthTable

/-- `n` steps in a row, stopping at the first that gives no next state. -/
def steps (n : Nat) (s : State) : Host.Outcome State Fault Refusal :=
  match n with
  | 0 => .next s
  | k + 1 =>
    match step s with
    | .next t => steps k t
    | .fault f => .fault f
    | .refused f => .refused f

end Sys2Proof
end

