-- ==== Sys2Proof/Certificates/Slice0/Obligations.lean ====
section
/-! DEFINITION. The statements for the provers. Throughout, `s.presenting r rest` is any state with request `r` on the
input ports and `rest` behind it, and `s.answered rest a` is the state after `r` has been answered with `a`. -/

open Sys2Proof Sys2Proof.Machine

/-! ### Encoding -/

/-- 30_encoding.md R47 to R49, R54, R60: a whole header, encoded and followed by any bytes, decodes to itself and leaves
those bytes: every operand at every value its field admits. -/
def Obligations.DecodeOfEncodedHeader : Prop :=
  ∀ (i : Instr) (rest : List Byte), i.wf = true → decode (encode i ++ rest) = .instr i rest

/-- The other direction, 30_encoding.md R47, R48, R54: what decodes is the encoding of what it decodes to. The truncated
code-3 form is included: its encoding is its TOC byte. -/
def Obligations.EncodeOfDecodedBytes : Prop :=
  ∀ (bytes : List Byte) (i : Instr) (rest : List Byte), decode bytes = .instr i rest → encode i ++ rest = bytes

/-- 41_toc_decode.md R77 with `pkt_len = 1` (log entry 12: the model's form for it): a code-3 TOC byte that ends the
packet decodes to the truncated form, with its configuration and stereo bit. -/
def Obligations.TruncatedCode3Decodes : Prop :=
  ∀ (cfg : BitVec 5) (stereo : Bool),
    decode [tocByte cfg stereo 3#2] = .instr (.tocCode3 cfg stereo none) []

/-- 30_encoding.md R49, R54, R56: every TOC byte selects the one operation its code names, with the byte's fields as
operands; the header is 2 bytes for code 3 and 1 byte otherwise. -/
def Obligations.EveryTocByteSelectsItsOperation : Prop :=
  (∀ (b0 b1 : Byte) (rest : List Byte), ∃ i : Instr,
    decode (b0 :: b1 :: rest) = .instr i (if codeField b0 = 3#2 then rest else b1 :: rest) ∧
    i.wf = true ∧ i.headerBytes = (if codeField b0 = 3#2 then 2 else 1) ∧
    i.code = codeField b0 ∧ i.cfg = cfgField b0 ∧ i.stereo = stereoField b0) ∧
  (∀ b0 : Byte, ∃ i : Instr,
    decode [b0] = .instr i [] ∧ i.code = codeField b0 ∧ i.cfg = cfgField b0 ∧ i.stereo = stereoField b0)

/-- 30_encoding.md R50 to R53, 00_scope.md R10: the fields as the source's shifts and masks. -/
def Obligations.FieldsAreShiftsAndMasks : Prop :=
  ∀ b : Byte,
    (cfgField b).toNat = (b.toNat >>> 3) &&& 0x1F ∧
    (stereoField b = true ↔ (b.toNat >>> 2) &&& 1 ≠ 0) ∧
    (codeField b).toNat = b.toNat &&& 0x03 ∧
    (countField b).toNat = b.toNat &&& 0x3F

/-- Words written out from 30_encoding.md R54 and R60 decode to the headers they stand for. -/
def Obligations.WrittenOutHeadersDecode : Prop :=
  decode [0b00000100#8] = .instr (.tocCode0 0b00000#5 true) [] ∧
  decode [0b01100101#8] = .instr (.tocCode1 0b01100#5 true) [] ∧
  decode [0b11111010#8] = .instr (.tocCode2 0b11111#5 false) [] ∧
  decode [0b01111111#8, 0b10000011#8] = .instr (.tocCode3 0b01111#5 true (some ⟨0b10#2, 0b000011#6⟩)) []

/-- 20_memory.md R36, R42: what the fetch gives depends on the length, on byte 0 when there is one, and on byte 1 only
when there is one and the code is 3; on no other index of the packet space. -/
def Obligations.FetchReadsOnlyHeaderBytes : Prop :=
  ∀ r r' : Request, r.pktLen = r'.pktLen →
    (1 ≤ r.pktLen → r.byte0 = r'.byte0) →
    (2 ≤ r.pktLen → codeField r.byte0 = 3#2 → r.byte1 = r'.byte1) →
    r.fetch = r'.fetch

/-! ### Steps -/

/-- 41_toc_decode.md R70, 30_encoding.md R54: when the header bytes of the request presented decode to an instruction,
the step is `exec` of it at that state, with nothing added around it. -/
def Obligations.StepRunsDecodedInstruction : Prop :=
  ∀ (s : State) (r : Request) (rest : List Request) (i : Instr) (after : List Byte),
    decode r.fetch = .instr i after → step (s.presenting r rest) = exec i (s.presenting r rest)

/-- Presenting the bits of a table row makes the very next step run the instruction decoded from them (log entry 2). -/
def Obligations.FetchWordRunsNext : Prop :=
  ∀ (s : State) (nbits w : Nat) (i : Instr), decodeTableWord nbits w = some i →
    step (s.withFetchWord nbits w) = exec i (s.withFetchWord nbits w)

/-- The model's choice, log entry 2: with no request presented a step changes nothing. -/
def Obligations.IdleWithoutRequest : Prop :=
  ∀ s : State, s.pending = [] → step s = .next s

/-- 30_encoding.md R55: a request with no TOC byte selects no operation and is answered `Err(TooShort)`, whatever the
byte inputs hold. -/
def Obligations.EmptyPacketIsTooShort : Prop :=
  ∀ (s : State) (r : Request) (rest : List Request), r.pktLen = 0 →
    decode r.fetch = .rejected .noTocByte ∧
    step (s.presenting r rest) = .next (s.answered rest (.err .tooShort))

/-- 41_toc_decode.md R73: `TOC_CODE0`, as the operation on its operands and as the step on a request. -/
def Obligations.TocCode0GivesOneFrame : Prop :=
  (∀ (cfg : BitVec 5) (stereo : Bool) (s : State),
    exec (.tocCode0 cfg stereo) s =
      .next (s.answered s.pending.tail (.ok { config := s.romRead cfg, numFrames := 1#6, stereo := stereo }))) ∧
  (∀ (s : State) (r : Request) (rest : List Request), 1 ≤ r.pktLen → codeField r.byte0 = 0#2 →
    step (s.presenting r rest) =
      .next (s.answered rest (.ok
        { config := s.romRead (cfgField r.byte0), numFrames := 1#6, stereo := stereoField r.byte0 })))

/-- 41_toc_decode.md R74: `TOC_CODE1`. -/
def Obligations.TocCode1GivesTwoFrames : Prop :=
  (∀ (cfg : BitVec 5) (stereo : Bool) (s : State),
    exec (.tocCode1 cfg stereo) s =
      .next (s.answered s.pending.tail (.ok { config := s.romRead cfg, numFrames := 2#6, stereo := stereo }))) ∧
  (∀ (s : State) (r : Request) (rest : List Request), 1 ≤ r.pktLen → codeField r.byte0 = 1#2 →
    step (s.presenting r rest) =
      .next (s.answered rest (.ok
        { config := s.romRead (cfgField r.byte0), numFrames := 2#6, stereo := stereoField r.byte0 })))

/-- 41_toc_decode.md R75: `TOC_CODE2`. -/
def Obligations.TocCode2GivesTwoFrames : Prop :=
  (∀ (cfg : BitVec 5) (stereo : Bool) (s : State),
    exec (.tocCode2 cfg stereo) s =
      .next (s.answered s.pending.tail (.ok { config := s.romRead cfg, numFrames := 2#6, stereo := stereo }))) ∧
  (∀ (s : State) (r : Request) (rest : List Request), 1 ≤ r.pktLen → codeField r.byte0 = 2#2 →
    step (s.presenting r rest) =
      .next (s.answered rest (.ok
        { config := s.romRead (cfgField r.byte0), numFrames := 2#6, stereo := stereoField r.byte0 })))

/-- 41_toc_decode.md R77: `TOC_CODE3` on its operands: the count that is there and not 0 is the number of frames, a count
of 0 raises `InvalidFrameCount`, a missing second byte raises `TooShort`. -/
def Obligations.TocCode3OnOperands : Prop :=
  ∀ (cfg : BitVec 5) (stereo : Bool) (s : State),
    (∀ b : CountByte, b.count ≠ 0#6 →
      exec (.tocCode3 cfg stereo (some b)) s =
        .next (s.answered s.pending.tail
          (.ok { config := s.romRead cfg, numFrames := b.count, stereo := stereo }))) ∧
    (∀ hi : BitVec 2, exec (.tocCode3 cfg stereo (some ⟨hi, 0#6⟩)) s =
      .next (s.answered s.pending.tail (.err .invalidFrameCount))) ∧
    exec (.tocCode3 cfg stereo none) s = .next (s.answered s.pending.tail (.err .tooShort))

/-- 41_toc_decode.md R77: the step on a code-3 request, in its three cases. -/
def Obligations.TocCode3OnRequests : Prop :=
  ∀ (s : State) (r : Request) (rest : List Request), 1 ≤ r.pktLen → codeField r.byte0 = 3#2 →
    step (s.presenting r rest) =
      .next (s.answered rest
        (if r.pktLen < 2 then .err .tooShort
         else if countField r.byte1 = 0#6 then .err .invalidFrameCount
         else .ok { config := s.romRead (cfgField r.byte0), numFrames := countField r.byte1,
                    stereo := stereoField r.byte0 }))

/-- 41_toc_decode.md R76: the two TOC bytes that differ in nothing but code 1 against code 2 get one response. -/
def Obligations.Codes1And2AnswerAlike : Prop :=
  ∀ (s : State) (cfg : BitVec 5) (stereo : Bool) (r r' : Request) (rest : List Request),
    1 ≤ r.pktLen → r'.pktLen = r.pktLen → r.byte0 = tocByte cfg stereo 1#2 → r'.byte0 = tocByte cfg stereo 2#2 →
    ∃ a : Response, step (s.presenting r rest) = .next (s.answered rest a) ∧
      step (s.presenting r' rest) = .next (s.answered rest a)

/-- 30_encoding.md R58: changing bits 7..6 of byte 1 never changes a response. -/
def Obligations.HighBitsOfByte1Ignored : Prop :=
  (∀ (cfg : BitVec 5) (stereo : Bool) (hi hi' : BitVec 2) (n : BitVec 6) (s : State),
    exec (.tocCode3 cfg stereo (some ⟨hi, n⟩)) s = exec (.tocCode3 cfg stereo (some ⟨hi', n⟩)) s) ∧
  (∀ (s : State) (r r' : Request) (rest : List Request),
    r'.pktLen = r.pktLen → r'.byte0 = r.byte0 → countField r'.byte1 = countField r.byte1 →
    ∃ a : Response, step (s.presenting r rest) = .next (s.answered rest a) ∧
      step (s.presenting r' rest) = .next (s.answered rest a))

/-- 41_toc_decode.md R70: on every request the fetch, the decoder and the four meanings together answer what the
spec's own `decodeHeader` computes, and change nothing else. -/
def Obligations.StepAgreesWithDecodeHeader : Prop :=
  ∀ (s : State) (r : Request) (rest : List Request),
    step (s.presenting r rest) =
      .next (s.answered rest (decodeHeader s.configRom s.bandwidthTable r.pktLen r.byte0 r.byte1))

/-- 41_toc_decode.md R80: requests that agree on the length up to 2, on byte 0 where it is meaningful and on the count
bits where they are read get one response. -/
def Obligations.ResponseDependsOnlyOnMeaningfulInputs : Prop :=
  ∀ (s : State) (r r' : Request) (rest : List Request),
    min r.pktLen 2 = min r'.pktLen 2 →
    (1 ≤ min r.pktLen 2 → r.byte0 = r'.byte0) →
    (min r.pktLen 2 = 2 → codeField r.byte0 = 3#2 → countField r.byte1 = countField r'.byte1) →
    ∃ a : Response, step (s.presenting r rest) = .next (s.answered rest a) ∧
      step (s.presenting r' rest) = .next (s.answered rest a)

/-- 00_scope.md R9, 10_state.md R20, 41_toc_decode.md R80: a machine whose length input is `LEN_W >= 2` bits wide and
shows its largest value for a length that does not fit answers as one that sees the length itself. -/
def Obligations.LengthInputOfAnyWidthIsExact : Prop :=
  ∀ (p : Config.Params), p.wf = true → ∀ (s : State) (r : Request) (rest : List Request),
    ∃ a : Response, step (s.presenting r rest) = .next (s.answered rest a) ∧
      step (s.presenting (r.throughLengthPort p.lenW) rest) = .next (s.answered rest a)

/-- 10_state.md R14, R33, 60_exceptions.md R93: what a request is answered depends on nothing that was answered before
(an error included) and on nothing that waits: two machines with the same tables answer it alike. -/
def Obligations.NothingPersistsBetweenTransactions : Prop :=
  ∀ (s t : State) (r : Request) (rest rest' : List Request), SameTables s t →
    ∃ a : Response, step (s.presenting r rest) = .next (s.answered rest a) ∧
      step (t.presenting r rest') = .next (t.answered rest' a)

/-- 60_exceptions.md R100: any number of instances that share the tables give one request one response. -/
def Obligations.InstancesAreOneFunction : Prop :=
  ∀ (p : Config.Params), p.wf = true → ∀ (instances : List State), instances.length = p.numDecoders →
    (∀ s ∈ instances, ∀ t ∈ instances, SameTables s t) → ∀ r : Request,
    ∃ a : Response, ∀ s ∈ instances, ∀ rest : List Request,
      step (s.presenting r rest) = .next (s.answered rest a)

/-- 41_toc_decode.md R81, 60_exceptions.md R88: every request has exactly one response, no step stops, and the response
is one of the two kinds. -/
def Obligations.EveryRequestHasOneResponse : Prop :=
  (∀ s : State, ∃ t : State, step s = .next t) ∧
  (∀ (s : State) (r : Request) (rest : List Request), ∃ a : Response,
    step (s.presenting r rest) = .next (s.answered rest a) ∧
    (∀ b : Response, step (s.presenting r rest) = .next (s.answered rest b) → b = a) ∧
    ((∃ h, a = .ok h) ∨ a = .err .tooShort ∨ a = .err .invalidFrameCount))

/-- The frame of all four operations (`TOC_CODE0` to `TOC_CODE3`), 20_memory.md R35, 60_exceptions.md R92: both tables
are unchanged, every earlier response is unchanged and one is added, the request answered leaves and every request that
waits keeps its length and EVERY byte of its packet. -/
def Obligations.OperationFrame : Prop :=
  ∀ (i : Instr) (s t : State), exec i s = .next t →
    t.configRom = s.configRom ∧ t.bandwidthTable = s.bandwidthTable ∧
    (∃ a : Response, t.responses = s.responses ++ [a]) ∧
    t.pending.length = s.pending.length - 1 ∧
    ∀ (k addr : Nat),
      t.pending[k]?.map (fun r => (r.pktLen, Memory.read r.packet addr)) =
        s.pending[k + 1]?.map (fun r => (r.pktLen, Memory.read r.packet addr))

/-- 41_toc_decode.md R82: what holds of every success. -/
def Obligations.SuccessLaws : Prop :=
  ∀ (s t : State) (r : Request) (rest : List Request) (h : Header),
    step (s.presenting r rest) = .next t → t.responses.getLast? = some (.ok h) →
    1 ≤ h.numFrames.toNat ∧
    (codeField r.byte0 = 0#2 → h.numFrames = 1#6) ∧
    (codeField r.byte0 = 1#2 ∨ codeField r.byte0 = 2#2 → h.numFrames = 2#6) ∧
    (codeField r.byte0 = 3#2 →
      h.numFrames = countField r.byte1 ∧ 1 ≤ h.numFrames.toNat ∧ h.numFrames.toNat ≤ 63) ∧
    h.config = s.romRead (cfgField r.byte0) ∧
    h.stereo = stereoField r.byte0

/-- 60_exceptions.md R89, R90, R91: exactly when each error is the response. -/
def Obligations.ErrorCauses : Prop :=
  ∀ (s : State) (r : Request) (rest : List Request),
    (step (s.presenting r rest) = .next (s.answered rest (.err .tooShort)) ↔
      r.pktLen = 0 ∨ (r.pktLen = 1 ∧ codeField r.byte0 = 3#2)) ∧
    (step (s.presenting r rest) = .next (s.answered rest (.err .invalidFrameCount)) ↔
      2 ≤ r.pktLen ∧ codeField r.byte0 = 3#2 ∧ countField r.byte1 = 0#6)

/-- 70_reset_and_hazards.md R106: presented one after another, the requests waiting are all answered, each as the
reference of R70 answers it alone, in order, and the tables are unchanged. -/
def Obligations.WaitingRequestsAllAnswered : Prop :=
  ∀ s : State,
    steps s.pending.length s =
      .next { configRom := s.configRom, bandwidthTable := s.bandwidthTable, pending := [],
              responses := s.responses ++ s.pending.map (fun r => s.reference r) }

/-! ### Invariant and reset -/

/-- 10_state.md R15, R19, 20_memory.md R35, 41_toc_decode.md R82: from every state that meets `StateInv`, a step gives a state
that meets it: the tables keep their constants, every packet waiting keeps its canonical form, and every response given
is one the block may give. -/
def Obligations.EveryStepKeepsInv : Prop :=
  ∀ s t : State, StateInv s → step s = .next t → StateInv t

/-- The state after reset meets the invariant. -/
def Obligations.ResetMeetsInv : Prop := StateInv State.reset

/-- 10_state.md R19, 70_reset_and_hazards.md R103: after reset the tables read as R61 and R63 give them. That no request
waits and no response has been given is the model's choice of its own two lists (log entry 1). -/
def Obligations.ResetState : Prop :=
  TablesFixed State.reset ∧ State.reset.pending = [] ∧ State.reset.responses = [] ∧ State.reset.outputs = none

/-! ### The tables -/

/-- 40_config_rom.md R63: what `RomRead` gives for each of the 32 codes, row by row of the table. -/
def Obligations.ConfigTableRows : Prop :=
  ∀ s : State, TablesFixed s →
    (List.range 32).map (fun k => s.romRead (BitVec.ofNat 5 k)) =
      [configRow .silk 10000 .nb 4 8, configRow .silk 20000 .nb 4 8,
       configRow .silk 40000 .nb 4 8, configRow .silk 60000 .nb 4 8,
       configRow .silk 10000 .mb 6 12, configRow .silk 20000 .mb 6 12,
       configRow .silk 40000 .mb 6 12, configRow .silk 60000 .mb 6 12,
       configRow .silk 10000 .wb 8 16, configRow .silk 20000 .wb 8 16,
       configRow .silk 40000 .wb 8 16, configRow .silk 60000 .wb 8 16,
       configRow .hybrid 10000 .swb 12 24, configRow .hybrid 20000 .swb 12 24,
       configRow .hybrid 10000 .fb 20 48, configRow .hybrid 20000 .fb 20 48] ++
      [configRow .celt 2500 .nb 4 8, configRow .celt 5000 .nb 4 8,
       configRow .celt 10000 .nb 4 8, configRow .celt 20000 .nb 4 8,
       configRow .celt 2500 .wb 8 16, configRow .celt 5000 .wb 8 16,
       configRow .celt 10000 .wb 8 16, configRow .celt 20000 .wb 8 16,
       configRow .celt 2500 .swb 12 24, configRow .celt 5000 .swb 12 24,
       configRow .celt 10000 .swb 12 24, configRow .celt 20000 .swb 12 24,
       configRow .celt 2500 .fb 20 48, configRow .celt 5000 .fb 20 48,
       configRow .celt 10000 .fb 20 48, configRow .celt 20000 .fb 20 48]

/-- 40_config_rom.md R65: the table equals its closed form. -/
def Obligations.ConfigTableClosedForm : Prop :=
  ∀ (s : State), TablesFixed s → ∀ k : BitVec 5,
    s.romRead k =
      { codec := (romClosedForm k).codec, frameDuration := (romClosedForm k).frameDurUs,
        bwIdx := (romClosedForm k).bwIdx, bandwidth := s.bandwidth (romClosedForm k).bwIdx }

/-- 40_config_rom.md R64: the codec groups, and in each group exactly the bandwidths and durations named. -/
def Obligations.CodecGroups : Prop :=
  ∀ (s : State), TablesFixed s →
    (∀ k : BitVec 5,
      (k.toNat ≤ 11 → (s.romRead k).codec = .silk ∧ (s.romRead k).bwIdx ∈ [.nb, .mb, .wb] ∧
        (s.romRead k).frameDuration ∈ [10000#16, 20000#16, 40000#16, 60000#16]) ∧
      (12 ≤ k.toNat ∧ k.toNat ≤ 15 → (s.romRead k).codec = .hybrid ∧ (s.romRead k).bwIdx ∈ [.swb, .fb] ∧
        (s.romRead k).frameDuration ∈ [10000#16, 20000#16]) ∧
      (16 ≤ k.toNat → (s.romRead k).codec = .celt ∧ (s.romRead k).bwIdx ∈ [.nb, .wb, .swb, .fb] ∧
        (s.romRead k).frameDuration ∈ [2500#16, 5000#16, 10000#16, 20000#16])) ∧
    (∀ b ∈ [BwIdx.nb, .mb, .wb], ∃ k : BitVec 5, k.toNat ≤ 11 ∧ (s.romRead k).bwIdx = b) ∧
    (∀ d ∈ [10000#16, 20000#16, 40000#16, 60000#16],
      ∃ k : BitVec 5, k.toNat ≤ 11 ∧ (s.romRead k).frameDuration = d) ∧
    (∀ b ∈ [BwIdx.swb, .fb], ∃ k : BitVec 5, 12 ≤ k.toNat ∧ k.toNat ≤ 15 ∧ (s.romRead k).bwIdx = b) ∧
    (∀ d ∈ [10000#16, 20000#16],
      ∃ k : BitVec 5, 12 ≤ k.toNat ∧ k.toNat ≤ 15 ∧ (s.romRead k).frameDuration = d) ∧
    (∀ b ∈ [BwIdx.nb, .wb, .swb, .fb], ∃ k : BitVec 5, 16 ≤ k.toNat ∧ (s.romRead k).bwIdx = b) ∧
    (∀ d ∈ [2500#16, 5000#16, 10000#16, 20000#16],
      ∃ k : BitVec 5, 16 ≤ k.toNat ∧ (s.romRead k).frameDuration = d)

/-- 40_config_rom.md R66: the entries are pairwise distinct as (codec, frameDuration, bandwidth) triples, so TOC bytes
with different `config` fields never give equal configurations. -/
def Obligations.ConfigsPairwiseDistinct : Prop :=
  ∀ (s : State), TablesFixed s →
    (∀ j k : BitVec 5,
      (s.romRead j).codec = (s.romRead k).codec →
      (s.romRead j).frameDuration = (s.romRead k).frameDuration →
      (s.romRead j).bandwidth = (s.romRead k).bandwidth → j = k) ∧
    (∀ b b' : Byte, cfgField b ≠ cfgField b' → s.romRead (cfgField b) ≠ s.romRead (cfgField b'))

/-- 40_config_rom.md R61: the five Bandwidth constants and their index codes. -/
def Obligations.BandwidthConstants : Prop :=
  ∀ (s : State), TablesFixed s →
    (s.bandwidth .nb = { bandwidthCode := 4, sampleRateKHz := 8 } ∧ BwIdx.nb.code = 0) ∧
    (s.bandwidth .mb = { bandwidthCode := 6, sampleRateKHz := 12 } ∧ BwIdx.mb.code = 1) ∧
    (s.bandwidth .wb = { bandwidthCode := 8, sampleRateKHz := 16 } ∧ BwIdx.wb.code = 2) ∧
    (s.bandwidth .swb = { bandwidthCode := 12, sampleRateKHz := 24 } ∧ BwIdx.swb.code = 3) ∧
    (s.bandwidth .fb = { bandwidthCode := 20, sampleRateKHz := 48 } ∧ BwIdx.fb.code = 4)

/-- 40_config_rom.md R68: the ROM words in the layout of that rule, and that an entry can be read back from its word. -/
def Obligations.RomWordLayout : Prop :=
  configRomContents.toList.map RomEntry.word =
    [0x04E200#21, 0x09C400#21, 0x138800#21, 0x1D4C00#21, 0x04E204#21, 0x09C404#21, 0x138804#21, 0x1D4C04#21,
     0x04E208#21, 0x09C408#21, 0x138808#21, 0x1D4C08#21, 0x04E20E#21, 0x09C40E#21, 0x04E212#21, 0x09C412#21] ++
    [0x013881#21, 0x027101#21, 0x04E201#21, 0x09C401#21, 0x013889#21, 0x027109#21, 0x04E209#21, 0x09C409#21,
     0x01388D#21, 0x02710D#21, 0x04E20D#21, 0x09C40D#21, 0x013891#21, 0x027111#21, 0x04E211#21, 0x09C411#21] ∧
  ∀ e ∈ configRomContents.toList, romEntryOfWord e.word = some e

/-! ### Outputs -/

/-- 42_duration.md R83: the product is exact for every header, and over the headers the block may give it runs from
2500 to 3,780,000 microseconds, both of which are given. -/
def Obligations.FullDurationIsExact : Prop :=
  (∀ h : Header, h.fullDuration.toNat = h.numFrames.toNat * h.config.frameDuration.toNat) ∧
  (∀ h : Header, ConfigInRom h.config → h.numFrames ≠ 0#6 →
    2500 ≤ h.fullDuration.toNat ∧ h.fullDuration.toNat ≤ 3780000) ∧
  (∃ h : Header, ConfigInRom h.config ∧ h.numFrames ≠ 0#6 ∧ h.fullDuration.toNat = 2500) ∧
  (∃ h : Header, ConfigInRom h.config ∧ h.numFrames ≠ 0#6 ∧ h.fullDuration.toNat = 3780000)

/-- 10_state.md R22, R23, R25: the codes on `status`, `codec` and `bw_idx`, and the codes never driven. -/
def Obligations.PortCodes : Prop :=
  (∀ h : Header, (Response.ok h).status = 0b00#2) ∧
  (Response.err .tooShort).status = 0b01#2 ∧ (Response.err .invalidFrameCount).status = 0b10#2 ∧
  (∀ a : Response, a.status ≠ 0b11#2) ∧
  Codec.silk.code = 0b00#2 ∧ Codec.celt.code = 0b01#2 ∧ Codec.hybrid.code = 0b10#2 ∧
  (∀ c : Codec, c.code ≠ 0b11#2) ∧
  BwIdx.nb.code = 0#3 ∧ BwIdx.mb.code = 1#3 ∧ BwIdx.wb.code = 2#3 ∧ BwIdx.swb.code = 3#3 ∧ BwIdx.fb.code = 4#3 ∧
  (∀ b : BwIdx, b.code.toNat < 5)

/-- 41_toc_decode.md R79: after every step that answers a request the output ports show that response as R79 says: on
success each port's value, on an error the status alone. -/
def Obligations.PortsShowTheResponse : Prop :=
  ∀ (s t : State) (r : Request) (rest : List Request) (a : Response),
    step (s.presenting r rest) = .next t → t.responses.getLast? = some a →
    (∀ h : Header, a = .ok h →
      ∃ p : HeaderPorts, t.outputs = some { status := 0b00#2, header := some p } ∧
        p.codec = h.config.codec.code ∧ p.frameDurUs = h.config.frameDuration ∧ p.bwIdx = h.config.bwIdx.code ∧
        p.bwCode = h.config.bandwidth.bandwidthCode ∧ p.sampleRateKhz = h.config.bandwidth.sampleRateKHz ∧
        p.numFrames = h.numFrames ∧ (p.stereo = 1#1 ↔ h.stereo = true) ∧
        p.fullDurUs.toNat = h.numFrames.toNat * h.config.frameDuration.toNat) ∧
    (a = .err .tooShort → t.outputs = some { status := 0b01#2, header := none }) ∧
    (a = .err .invalidFrameCount → t.outputs = some { status := 0b10#2, header := none })

/-- 10_state.md R22 to R31: in every state that meets `StateInv`, what the output ports show is in its range. -/
def Obligations.PortValuesInRange : Prop :=
  ∀ (s : State) (p : Ports), StateInv s → s.outputs = some p →
    p.status ≠ 0b11#2 ∧ (p.header.isSome = true ↔ p.status = 0b00#2) ∧
    ∀ h : HeaderPorts, p.header = some h →
      h.codec ≠ 0b11#2 ∧ h.bwIdx.toNat ≤ 4 ∧
      h.frameDurUs ∈ [2500#16, 5000#16, 10000#16, 20000#16, 40000#16, 60000#16] ∧
      1 ≤ h.numFrames.toNat ∧ h.numFrames.toNat ≤ 63 ∧
      2500 ≤ h.fullDurUs.toNat ∧ h.fullDurUs.toNat ≤ 3780000 ∧
      h.bwCode.toNat ≤ 20 ∧ h.sampleRateKhz.toNat ≤ 48
end

