-- ==== Sys2Proof/Laws/Memory.lean ====
section
/-! SUPPORT. The laws of the packet space: a read after a write, and that every operation keeps the canonical form. -/

namespace Sys2Proof.Machine

theorem Memory.wfFrom_mono {m : Memory} {lo hi : Nat} (h : Memory.wfFrom m hi = true) (hle : lo ≤ hi) :
    Memory.wfFrom m lo = true := by
  cases m with
  | nil => rfl
  | cons c rest =>
    obtain ⟨k, b⟩ := c
    simp only [Memory.wfFrom, Bool.and_eq_true, decide_eq_true_eq] at h ⊢
    exact ⟨⟨by omega, h.1.2⟩, h.2⟩

/-- Below the bound of a canonical list nothing is listed. -/
theorem Memory.read_of_lt {m : Memory} {lo a : Nat} (h : Memory.wfFrom m lo = true) (ha : a < lo) :
    Memory.read m a = unlistedByte := by
  induction m generalizing lo with
  | nil => rfl
  | cons c rest ih =>
    obtain ⟨k, b⟩ := c
    simp only [Memory.wfFrom, Bool.and_eq_true, decide_eq_true_eq] at h
    have hne : a ≠ k := by omega
    simp only [Memory.read, hne, if_false]
    exact ih h.2 (by omega)

theorem Memory.read_cons {m : Memory} {a : Nat} (b : Byte) (x : Nat) (h : Memory.wfFrom m (a + 1) = true) :
    Memory.read (Memory.cons a b m) x = if x = a then b else Memory.read m x := by
  by_cases hb : b = unlistedByte
  · simp only [Memory.cons, hb, if_true]
    split
    · next hx => exact Memory.read_of_lt h (by omega)
    · rfl
  · simp only [Memory.cons, hb, if_false, Memory.read]

theorem Memory.wfFrom_cons {m : Memory} {a lo : Nat} (b : Byte) (h : Memory.wfFrom m (a + 1) = true)
    (hlo : lo ≤ a) : Memory.wfFrom (Memory.cons a b m) lo = true := by
  by_cases hb : b = unlistedByte
  · simp only [Memory.cons, hb, if_true]
    exact Memory.wfFrom_mono h (by omega)
  · simp [Memory.cons, hb, Memory.wfFrom, hlo, h]

/-- A write keeps the canonical form. -/
theorem Memory.wfFrom_write {m : Memory} {a lo : Nat} (b : Byte) (h : Memory.wfFrom m lo = true) (hlo : lo ≤ a) :
    Memory.wfFrom (Memory.write m a b) lo = true := by
  induction m generalizing lo with
  | nil => exact Memory.wfFrom_cons b rfl hlo
  | cons c rest ih =>
    obtain ⟨k, c⟩ := c
    have hk := h
    simp only [Memory.wfFrom, Bool.and_eq_true, decide_eq_true_eq] at hk
    obtain ⟨⟨hlk, hc⟩, hrest⟩ := hk
    simp only [Memory.write]
    split
    · refine Memory.wfFrom_cons b ?_ hlo
      simp only [Memory.wfFrom, Bool.and_eq_true, decide_eq_true_eq]
      exact ⟨⟨by omega, hc⟩, hrest⟩
    · split
      · next ha => exact Memory.wfFrom_cons b (ha ▸ hrest) hlo
      · simp only [Memory.wfFrom, Bool.and_eq_true, decide_eq_true_eq]
        exact ⟨⟨hlk, hc⟩, ih hrest (by omega)⟩

theorem Memory.wf_write {m : Memory} (a : Nat) (b : Byte) (h : Memory.wf m = true) :
    Memory.wf (Memory.write m a b) = true :=
  Memory.wfFrom_write b h (Nat.zero_le a)

/-- A read after a write: the byte written where it was written, and every other place as before. -/
theorem Memory.read_write {m : Memory} {lo : Nat} (a : Nat) (b : Byte) (x : Nat) (h : Memory.wfFrom m lo = true) :
    Memory.read (Memory.write m a b) x = if x = a then b else Memory.read m x := by
  induction m generalizing lo with
  | nil => exact Memory.read_cons b x rfl
  | cons c rest ih =>
    obtain ⟨k, c⟩ := c
    have hk := h
    simp only [Memory.wfFrom, Bool.and_eq_true, decide_eq_true_eq] at hk
    obtain ⟨⟨hlk, hc⟩, hrest⟩ := hk
    simp only [Memory.write]
    split
    · next hlt =>
      refine Memory.read_cons b x ?_
      simp only [Memory.wfFrom, Bool.and_eq_true, decide_eq_true_eq]
      exact ⟨⟨by omega, hc⟩, hrest⟩
    · split
      · next ha =>
        subst ha
        rw [Memory.read_cons b x hrest]
        by_cases hx : x = a <;> simp [Memory.read, hx]
      · next hne =>
        simp only [Memory.read]
        rw [ih hrest]
        by_cases hx : x = k
        · simp [hx, Ne.symm hne]
        · simp [hx]

theorem wfFrom_packetFrom (a : Nat) (bytes : List Byte) : Memory.wfFrom (packetFrom a bytes) a = true := by
  induction bytes generalizing a with
  | nil => rfl
  | cons b rest ih =>
    exact Memory.wfFrom_write b (Memory.wfFrom_mono (ih (a + 1)) (by omega)) (Nat.le_refl a)

/-- A packet that the host lays out is in canonical form. -/
theorem Request.wf_ofBytes (bytes : List Byte) : Memory.wf (Request.ofBytes bytes).packet = true :=
  wfFrom_packetFrom 0 bytes

theorem read_packetFrom (a : Nat) (bytes : List Byte) (i : Nat) :
    Memory.read (packetFrom a bytes) (a + i) = bytes[i]?.getD unlistedByte := by
  induction bytes generalizing a i with
  | nil => rfl
  | cons b rest ih =>
    rw [packetFrom, Memory.read_write a b _ (wfFrom_packetFrom (a + 1) rest)]
    cases i with
    | zero => simp
    | succ j =>
      have h := ih (a + 1) j
      rw [show a + 1 + j = a + (j + 1) by omega] at h
      simpa using h

/-- `PktRead` on a packet that the host lays out gives the packet's bytes, and nothing outside it. -/
theorem Request.pktRead_ofBytes (bytes : List Byte) (i : Nat) : (Request.ofBytes bytes).pktRead i = bytes[i]? := by
  have h := read_packetFrom 0 bytes i
  rw [Nat.zero_add] at h
  by_cases hi : i < bytes.length
  · simp [Request.pktRead, Request.ofBytes, hi, h]
  · simp [Request.pktRead, Request.ofBytes, hi]

theorem State.reset_packets_wf : ∀ r ∈ State.reset.pending, Memory.wf r.packet = true := by
  simp [State.reset]

/-- The host's presenting a table row's bytes keeps every packet in canonical form. -/
theorem State.withFetchWord_packets_wf (s : State) (n w : Nat)
    (h : ∀ r ∈ s.pending, Memory.wf r.packet = true) :
    ∀ r ∈ (s.withFetchWord n w).pending, Memory.wf r.packet = true := by
  intro r hr
  rcases List.mem_cons.mp hr with rfl | hr
  · exact Request.wf_ofBytes _
  · exact h r hr

end Sys2Proof.Machine
end

