-- ==== Sys2Proof/Laws/State.lean ====
section
/-! SUPPORT. One lemma per field of State per update, each true by unfolding the update once. -/

namespace Sys2Proof.Machine

variable (s : State) (a : Response) (r : Request) (rest : List Request) (n w : Nat)

@[simp] theorem State.finish_configRom : (s.finish a).configRom = s.configRom := rfl
@[simp] theorem State.finish_bandwidthTable : (s.finish a).bandwidthTable = s.bandwidthTable := rfl
@[simp] theorem State.finish_pending : (s.finish a).pending = s.pending.tail := rfl
@[simp] theorem State.finish_responses : (s.finish a).responses = s.responses ++ [a] := rfl
@[simp] theorem State.finish_romRead (k : BitVec 5) : (s.finish a).romRead k = s.romRead k := rfl
@[simp] theorem State.finish_bandwidth (i : BwIdx) : (s.finish a).bandwidth i = s.bandwidth i := rfl
@[simp] theorem State.finish_current : (s.finish a).current = s.pending.tail.head? := rfl

@[simp] theorem State.presenting_configRom : (s.presenting r rest).configRom = s.configRom := rfl
@[simp] theorem State.presenting_bandwidthTable : (s.presenting r rest).bandwidthTable = s.bandwidthTable := rfl
@[simp] theorem State.presenting_pending : (s.presenting r rest).pending = r :: rest := rfl
@[simp] theorem State.presenting_responses : (s.presenting r rest).responses = s.responses := rfl
@[simp] theorem State.presenting_current : (s.presenting r rest).current = some r := rfl
@[simp] theorem State.presenting_romRead (k : BitVec 5) :
    (s.presenting r rest).romRead k = s.romRead k := rfl

@[simp] theorem State.answered_configRom : (s.answered rest a).configRom = s.configRom := rfl
@[simp] theorem State.answered_bandwidthTable : (s.answered rest a).bandwidthTable = s.bandwidthTable := rfl
@[simp] theorem State.answered_pending : (s.answered rest a).pending = rest := rfl
@[simp] theorem State.answered_responses : (s.answered rest a).responses = s.responses ++ [a] := rfl

/-- Ending the transaction of a request presented. -/
@[simp] theorem State.finish_presenting : (s.presenting r rest).finish a = s.answered rest a := rfl

@[simp] theorem State.answered_outputs : (s.answered rest a).outputs = some a.ports := by
  simp [State.outputs]

@[simp] theorem State.withFetchWord_configRom : (s.withFetchWord n w).configRom = s.configRom := rfl
@[simp] theorem State.withFetchWord_bandwidthTable :
    (s.withFetchWord n w).bandwidthTable = s.bandwidthTable := rfl
@[simp] theorem State.withFetchWord_pending :
    (s.withFetchWord n w).pending = Request.ofBytes (tableBytes n w) :: s.pending := rfl
@[simp] theorem State.withFetchWord_responses : (s.withFetchWord n w).responses = s.responses := rfl

@[simp] theorem State.finish_outputs : (s.finish a).outputs = some a.ports := by
  simp [State.outputs]

end Sys2Proof.Machine
end

