-- ==== Sys2Proof/Laws/Ops.lean ====
section
/-! SUPPORT. One lemma per shared operation that says everything it can do; later proofs cite these. -/

namespace Sys2Proof.Machine

theorem returnOk_eq (h : Header) (s : State) : returnOk h s = .next (s.finish (.ok h)) := rfl

theorem raise_eq (e : DecodeError) (s : State) : raise e s = .next (s.finish (.err e)) := rfl

theorem returnHeader_eq (cfg : BitVec 5) (stereo : Bool) (n : BitVec 6) (s : State) :
    returnHeader cfg stereo n s =
      .next (s.finish (.ok { config := s.romRead cfg, numFrames := n, stereo := stereo })) := rfl

theorem answerRejected_eq (why : Reject) (s : State) : answerRejected why s = .next (s.finish (.err .tooShort)) := by
  cases why; rfl

theorem idle_eq (s : State) : idle s = .next s := rfl

theorem Request.pktRead_of_lt {r : Request} {i : Nat} (h : i < r.pktLen) :
    r.pktRead i = some (Memory.read r.packet i) := by
  simp [Request.pktRead, h]

theorem Request.pktRead_of_ge {r : Request} {i : Nat} (h : r.pktLen ≤ i) : r.pktRead i = none := by
  simp [Request.pktRead, Nat.not_lt.mpr h]

/-- Everything the fetch can give, by the length and the frame-count code. -/
theorem Request.fetch_eq (r : Request) :
    r.fetch =
      if r.pktLen = 0 then []
      else if codeField r.byte0 = 3#2 ∧ 2 ≤ r.pktLen then [r.byte0, r.byte1]
      else [r.byte0] := by
  by_cases h0 : r.pktLen = 0
  · simp [Request.fetch, Request.pktRead, h0]
  · have hp0 : r.pktRead 0 = some r.byte0 := Request.pktRead_of_lt (by omega)
    by_cases hc : codeField r.byte0 = 3#2
    · by_cases h2 : 2 ≤ r.pktLen
      · have hp1 : r.pktRead 1 = some r.byte1 := Request.pktRead_of_lt (by omega)
        simp [Request.fetch, hp0, hp1, h0, hc, h2]
      · have hp1 : r.pktRead 1 = none := Request.pktRead_of_ge (by omega)
        simp [Request.fetch, hp0, hp1, h0, hc, h2]
    · simp [Request.fetch, hp0, h0, hc]

/-- A step with a request, as its bytes decode. -/
theorem step_of_cons {s : State} {r : Request} {rest : List Request} (h : s.pending = r :: rest) :
    step s =
      match decode r.fetch with
      | .instr i _ => exec i s
      | .rejected why => answerRejected why s := by
  obtain ⟨rom, bw, pending, responses⟩ := s
  cases h
  rfl

end Sys2Proof.Machine
end

