-- ==== Sys2Proof/Laws/PerInstr.lean ====
section
/-! SUPPORT. The family `Encoding`: what every header's bytes look like, one lemma per constructor. -/

namespace Sys2Proof.Laws

/-- The two low bits of a TOC byte are its frame-count code. -/
theorem codeField_tocByte (cfg : BitVec 5) (stereo : Bool) (c : BitVec 2) :
    codeField (tocByte cfg stereo c) = c := by
  revert cfg stereo c; decide

/-- A whole header has the length of 30_encoding.md R49, and its first byte holds the frame-count code of its
operation (R54). -/
def Encoding.Statement (i : Instr) : Prop :=
  i.wf = true → (encode i).length = i.headerBytes ∧ ∃ b0 rest, encode i = b0 :: rest ∧ codeField b0 = i.code

theorem Encoding.tocCode0 (cfg : BitVec 5) (stereo : Bool) :
    Encoding.Statement (.tocCode0 cfg stereo) :=
  fun _ => ⟨rfl, _, _, rfl, codeField_tocByte cfg stereo 0#2⟩

theorem Encoding.tocCode1 (cfg : BitVec 5) (stereo : Bool) :
    Encoding.Statement (.tocCode1 cfg stereo) :=
  fun _ => ⟨rfl, _, _, rfl, codeField_tocByte cfg stereo 1#2⟩

theorem Encoding.tocCode2 (cfg : BitVec 5) (stereo : Bool) :
    Encoding.Statement (.tocCode2 cfg stereo) :=
  fun _ => ⟨rfl, _, _, rfl, codeField_tocByte cfg stereo 2#2⟩

theorem Encoding.tocCode3 (cfg : BitVec 5) (stereo : Bool) (countByte : Option CountByte) :
    Encoding.Statement (.tocCode3 cfg stereo countByte) := by
  intro h
  cases countByte with
  | none => cases h
  | some b => exact ⟨rfl, _, _, rfl, codeField_tocByte cfg stereo 3#2⟩

end Sys2Proof.Laws
end

