-- ==== Sys2Proof/Tests/Slice0.lean ====
section
/-! SUPPORT. Tests of one step each, decoding from words written out by hand, the checks of WellFormed.lean on ill-formed
terms, and a witness for the hypotheses of every statement. Expected values are those of spec/95_test_vectors.md. -/

namespace Sys2Proof.Tests

open Machine

/-- The machine after reset with one packet of exactly these bytes presented. -/
def presented (bytes : List Byte) : State := State.reset.presenting (Request.ofBytes bytes) []

/-- The output ports after one step on such a packet. -/
def portsAfter (bytes : List Byte) : Option Ports :=
  match step (presented bytes) with
  | .next t => t.outputs
  | .fault _ => none
  | .refused _ => none

/-! ### Decoding (30_encoding.md R54, R60; 95_test_vectors.md S-04, V-DEC-10, S-08, P1 step 4) -/

theorem test_decode_tocCode0 : decode [0b00000100#8] = .instr (.tocCode0 0b00000#5 true) [] := by decide
theorem test_decode_tocCode1 : decode [0b01100101#8] = .instr (.tocCode1 0b01100#5 true) [] := by decide
theorem test_decode_tocCode2 : decode [0b11111010#8] = .instr (.tocCode2 0b11111#5 false) [] := by decide
theorem test_decode_tocCode3 :
    decode [0b01111111#8, 0b10000011#8] = .instr (.tocCode3 0b01111#5 true (some ⟨0b10#2, 0b000011#6⟩)) [] := by decide
theorem test_decode_truncated : decode [0b00000011#8] = .instr (.tocCode3 0#5 false none) [] := by decide
theorem test_decode_payload_left : decode [0xF9#8, 0x00#8] = .instr (.tocCode1 31#5 false) [0x00#8] := by decide
theorem test_decode_empty : decode [] = .rejected .noTocByte := by decide
/-- R60's example `TOC cfg=0 s=0 c=3 count=5` is `0x03 0x05`. -/
theorem test_encode_tocCode3 : encode (.tocCode3 0#5 false (some ⟨0#2, 5#6⟩)) = [0x03#8, 0x05#8] := by decide
theorem test_table_word : decodeTableWord 16 0x0503 = some (.tocCode3 0#5 false (some ⟨0#2, 5#6⟩)) := by decide
theorem test_table_word_short : decodeTableWord 8 0x0503 = some (.tocCode3 0#5 false (some ⟨0#2, 0#6⟩)) := by decide

/-! ### Well-formedness: each check on an ill-formed term -/

theorem test_wf_refuses_truncated : (Instr.tocCode3 0#5 false none).wf = false := by decide
theorem test_wf_accepts_whole : (Instr.tocCode3 0#5 false (some ⟨0#2, 0#6⟩)).wf = true := by decide
theorem test_params_refuse_lenW_1 : (Config.Params.mk 1 0 1).wf = false := by decide
theorem test_params_refuse_no_decoder : (Config.Params.mk 2 0 0).wf = false := by decide
theorem test_memory_refuses_order : Memory.wf [(1, 0x05#8), (0, 0x03#8)] = false := by decide
theorem test_memory_refuses_repeat : Memory.wf [(1, 0x05#8), (1, 0x03#8)] = false := by decide
theorem test_memory_refuses_unlisted_value : Memory.wf [(0, 0x00#8)] = false := by decide

/-! ### Steps -/

/-- V-DEC-04. -/
theorem test_tocCode0_stereo :
    portsAfter [0x04#8] = some ⟨0, some ⟨0, 10000, 0, 4, 8, 1, 1, 10000⟩⟩ := by decide
/-- V-DEC-07: a byte 1 of 0 is not read. -/
theorem test_tocCode0_byte1_not_read :
    portsAfter [0x00#8, 0x00#8] = some ⟨0, some ⟨0, 10000, 0, 4, 8, 1, 0, 10000⟩⟩ := by decide
/-- V-DEC-10. -/
theorem test_tocCode1_hybrid :
    portsAfter [0x65#8] = some ⟨0, some ⟨2, 10000, 3, 12, 24, 2, 1, 20000⟩⟩ := by decide
/-- S-10. -/
theorem test_tocCode1_celt :
    portsAfter [0x81#8] = some ⟨0, some ⟨1, 2500, 0, 4, 8, 2, 0, 5000⟩⟩ := by decide
/-- S-08. -/
theorem test_tocCode2_last_entry :
    portsAfter [0xFA#8] = some ⟨0, some ⟨1, 20000, 4, 20, 48, 2, 0, 40000⟩⟩ := by decide
/-- P3 step 2: bits 7..6 ignored, the largest count. -/
theorem test_tocCode3_high_bits :
    portsAfter [0x63#8, 0xFF#8] = some ⟨0, some ⟨2, 10000, 3, 12, 24, 63, 0, 630000⟩⟩ := by decide
/-- V-DEC-23: the largest full duration, no 120 ms check. -/
theorem test_tocCode3_longest :
    portsAfter [0x1B#8, 0x3F#8] = some ⟨0, some ⟨0, 60000, 0, 4, 8, 63, 0, 3780000⟩⟩ := by decide
/-- V-DEC-14. -/
theorem test_too_short_code3 : portsAfter [0xFF#8] = some ⟨0b01, none⟩ := by decide
/-- V-DEC-18. -/
theorem test_invalid_frame_count : portsAfter [0x03#8, 0xC0#8] = some ⟨0b10, none⟩ := by decide
/-- V-DEC-02: the empty packet with stale values on the byte inputs. -/
theorem test_empty_packet_stale_inputs :
    step (State.reset.presenting ⟨0, [(0, 0xFF#8), (1, 0xFF#8)]⟩ []) =
      .next (State.reset.answered [] (.err .tooShort)) := by rfl
/-- P2 step 5 after step 3: an error leaves no trace on the next request. -/
theorem test_error_leaves_no_trace :
    step ((State.reset.answered [] (.err .invalidFrameCount)).presenting (Request.ofBytes [0x00#8]) []) =
      .next { State.reset with
        responses := [.err .invalidFrameCount, .ok ⟨configRow .silk 10000 .nb 4 8, 1, false⟩] } := by rfl
/-- 20_memory.md R34: a packet is laid out with index 0 first; the byte `0x00` is unlisted. -/
theorem test_packet_layout : (Request.ofBytes [0x03#8, 0x00#8, 0x07#8]) = ⟨3, [(0, 0x03#8), (2, 0x07#8)]⟩ := by decide
theorem test_fetch_word_first_step :
    step (State.reset.withFetchWord 8 0xFA) = exec (.tocCode2 31#5 false) (State.reset.withFetchWord 8 0xFA) := by rfl

/-! ### Witnesses: the hypotheses of each statement are met, one witness for each clause -/

theorem witness_DecodeOfEncodedHeader : (Instr.tocCode3 31#5 true (some ⟨3#2, 63#6⟩)).wf = true := by decide

theorem witness_EncodeOfDecodedBytes : decode [0xFA#8, 0x01#8] = .instr (.tocCode2 31#5 false) [0x01#8] := by decide

/-- Two packets that differ in byte 1, which is not read, and in the payload. -/
theorem witness_FetchReadsOnlyHeaderBytes :
    let r := Request.ofBytes [0x01#8, 0x05#8, 0x06#8]
    let r' := Request.ofBytes [0x01#8, 0x09#8, 0x00#8]
    r ≠ r' ∧ r.pktLen = r'.pktLen ∧ (1 ≤ r.pktLen → r.byte0 = r'.byte0) ∧
      (2 ≤ r.pktLen → codeField r.byte0 = 3#2 → r.byte1 = r'.byte1) := by decide

/-- The same with a code-3 packet, whose byte 1 is read. -/
theorem witness_FetchReadsOnlyHeaderBytes_code3 :
    let r := Request.ofBytes [0x03#8, 0x05#8, 0x06#8]
    let r' := Request.ofBytes [0x03#8, 0x05#8, 0x00#8]
    r ≠ r' ∧ r.pktLen = r'.pktLen ∧ r.byte0 = r'.byte0 ∧ codeField r.byte0 = 3#2 ∧ r.byte1 = r'.byte1 := by decide

theorem witness_StepRunsDecodedInstruction :
    decode (Request.ofBytes [0x03#8]).fetch = .instr (.tocCode3 0#5 false none) [] := by decide

theorem witness_FetchWordRunsNext : decodeTableWord 16 0xFF1B = some (.tocCode3 3#5 false (some ⟨3#2, 63#6⟩)) := by decide

theorem witness_IdleWithoutRequest : State.reset.pending = [] := by decide

theorem witness_EmptyPacketIsTooShort : (Request.mk 0 [(0, 0xFF#8)]).pktLen = 0 := by decide

theorem witness_TocCode0GivesOneFrame :
    1 ≤ (Request.ofBytes [0xFC#8]).pktLen ∧ codeField (Request.ofBytes [0xFC#8]).byte0 = 0#2 := by decide

theorem witness_TocCode1GivesTwoFrames :
    1 ≤ (Request.ofBytes [0x01#8]).pktLen ∧ codeField (Request.ofBytes [0x01#8]).byte0 = 1#2 := by decide

theorem witness_TocCode2GivesTwoFrames :
    1 ≤ (Request.ofBytes [0x02#8]).pktLen ∧ codeField (Request.ofBytes [0x02#8]).byte0 = 2#2 := by decide

theorem witness_TocCode3OnOperands : (CountByte.mk 0#2 1#6).count ≠ 0#6 := by decide

/-- A code-3 request of length 1, of length 2 with count 0, of length 2 with the largest count. -/
theorem witness_TocCode3OnRequests :
    (codeField (Request.ofBytes [0x03#8]).byte0 = 3#2 ∧ (Request.ofBytes [0x03#8]).pktLen = 1) ∧
    (let r := Request.ofBytes [0x03#8, 0x40#8]; codeField r.byte0 = 3#2 ∧ r.pktLen = 2 ∧ countField r.byte1 = 0#6) ∧
    (let r := Request.ofBytes [0x03#8, 0x3F#8]; codeField r.byte0 = 3#2 ∧ r.pktLen = 2 ∧ countField r.byte1 = 63#6) := by
  decide

theorem witness_Codes1And2AnswerAlike :
    let r := Request.ofBytes [0x65#8]
    let r' := Request.ofBytes [0x66#8]
    1 ≤ r.pktLen ∧ r'.pktLen = r.pktLen ∧ r.byte0 = tocByte 12#5 true 1#2 ∧ r'.byte0 = tocByte 12#5 true 2#2 := by decide

theorem witness_HighBitsOfByte1Ignored :
    let r := Request.ofBytes [0x03#8, 0x05#8]
    let r' := Request.ofBytes [0x03#8, 0xC5#8]
    r ≠ r' ∧ r'.pktLen = r.pktLen ∧ r'.byte0 = r.byte0 ∧ countField r'.byte1 = countField r.byte1 := by decide

/-- Lengths 0, 1 and "2 or more", each with different inputs where they are not meaningful. -/
theorem witness_ResponseDependsOnlyOnMeaningfulInputs :
    (min (Request.mk 0 [(0, 0x03#8)]).pktLen 2 = min (Request.mk 0 [(0, 0xFF#8)]).pktLen 2) ∧
    (let r := Request.mk 1 [(0, 0x03#8), (1, 0x05#8)]; let r' := Request.mk 1 [(0, 0x03#8)];
      min r.pktLen 2 = min r'.pktLen 2 ∧ r.byte0 = r'.byte0) ∧
    (let r := Request.ofBytes [0x03#8, 0x05#8]; let r' := Request.ofBytes [0x03#8, 0x45#8, 0x99#8];
      min r.pktLen 2 = min r'.pktLen 2 ∧ r.byte0 = r'.byte0 ∧ codeField r.byte0 = 3#2 ∧
        countField r.byte1 = countField r'.byte1) := by decide

theorem witness_LengthInputOfAnyWidthIsExact :
    (Config.Params.mk 2 0 1).wf = true ∧ ((Request.mk 1000 []).throughLengthPort 2).pktLen = 3 := by decide

theorem witness_NothingPersistsBetweenTransactions :
    SameTables State.reset (State.reset.answered [Request.ofBytes [0x03#8]] (.err .invalidFrameCount)) := ⟨rfl, rfl⟩

theorem witness_InstancesAreOneFunction :
    let instances := [State.reset, State.reset.answered [] (.err .tooShort)]
    (Config.Params.mk 2 0 2).wf = true ∧ instances.length = (Config.Params.mk 2 0 2).numDecoders ∧
      ∀ s ∈ instances, ∀ t ∈ instances, SameTables s t := by decide

theorem witness_OperationFrame :
    exec (.tocCode0 0#5 false) (presented [0x00#8]) =
      .next (State.reset.answered [] (.ok ⟨configRow .silk 10000 .nb 4 8, 1, false⟩)) := by rfl

/-- A success of each of the codes 0, 1, 2 and 3. -/
theorem witness_SuccessLaws :
    (step (presented [0xF8#8]) = .next (State.reset.answered [] (.ok ⟨configRow .celt 20000 .fb 20 48, 1, false⟩))) ∧
    (step (presented [0x01#8]) = .next (State.reset.answered [] (.ok ⟨configRow .silk 10000 .nb 4 8, 2, false⟩))) ∧
    (step (presented [0x66#8]) = .next (State.reset.answered [] (.ok ⟨configRow .hybrid 10000 .swb 12 24, 2, true⟩))) ∧
    (step (presented [0x5F#8, 0x02#8]) =
      .next (State.reset.answered [] (.ok ⟨configRow .silk 60000 .wb 8 16, 2, true⟩))) := ⟨rfl, rfl, rfl, rfl⟩

/-- Each cause of an error occurs. -/
theorem witness_ErrorCauses :
    (Request.ofBytes []).pktLen = 0 ∧
    (let r := Request.ofBytes [0xFF#8]; r.pktLen = 1 ∧ codeField r.byte0 = 3#2) ∧
    (let r := Request.ofBytes [0x03#8, 0x80#8]; 2 ≤ r.pktLen ∧ codeField r.byte0 = 3#2 ∧ countField r.byte1 = 0#6) := by
  decide

/-- A machine that has given an error and a header and has a request waiting meets the invariant. -/
def midRun : State :=
  { State.reset with
    pending := [Request.ofBytes [0x03#8, 0x05#8]]
    responses := [.err .tooShort, .ok ⟨configRow .celt 20000 .fb 20 48, 2, false⟩] }

theorem witness_midRun_inv : StateInv midRun := by
  refine ⟨⟨rfl, rfl⟩, ?_, ?_⟩
  · intro r hr
    rw [List.mem_singleton.mp hr]
    decide
  · intro a ha
    rcases List.mem_cons.mp ha with rfl | ha
    · trivial
    · rw [List.mem_singleton.mp ha]
      exact ⟨⟨31#5, rfl⟩, by decide⟩

theorem witness_EveryStepKeepsInv :
    StateInv midRun ∧
      step midRun = .next (midRun.answered [] (.ok ⟨configRow .silk 10000 .nb 4 8, 5, false⟩)) :=
  ⟨witness_midRun_inv, rfl⟩

/-- The premise of the statements about the tables. -/
theorem witness_TablesFixed : TablesFixed State.reset := ⟨rfl, rfl⟩

/-- The boundary codes of each clause of CodecGroups: 0 and 11, 12 and 15, 16 and 31. -/
theorem witness_CodecGroups :
    (State.reset.romRead 0).codec = .silk ∧ (State.reset.romRead 11).codec = .silk ∧
    (State.reset.romRead 12).codec = .hybrid ∧ (State.reset.romRead 15).codec = .hybrid ∧
    (State.reset.romRead 16).codec = .celt ∧ (State.reset.romRead 31).codec = .celt := by decide

theorem witness_ConfigsPairwiseDistinct : cfgField 0x00#8 ≠ cfgField 0x08#8 := by decide

theorem witness_FullDurationIsExact :
    ConfigInRom (configRow .celt 2500 .nb 4 8) ∧ (⟨configRow .celt 2500 .nb 4 8, 1, false⟩ : Header).numFrames ≠ 0#6 :=
  ⟨⟨16#5, rfl⟩, by decide⟩

/-- A success, and each of the two errors. -/
theorem witness_PortsShowTheResponse :
    (step (presented [0x80#8]) = .next (State.reset.answered [] (.ok ⟨configRow .celt 2500 .nb 4 8, 1, false⟩))) ∧
    (step (presented [0x03#8]) = .next (State.reset.answered [] (.err .tooShort))) ∧
    (step (presented [0x03#8, 0x00#8]) = .next (State.reset.answered [] (.err .invalidFrameCount))) := ⟨rfl, rfl, rfl⟩

theorem witness_PortValuesInRange :
    StateInv midRun ∧ midRun.outputs = some ⟨0, some ⟨1, 20000, 4, 20, 48, 2, 0, 40000⟩⟩ :=
  ⟨witness_midRun_inv, by decide⟩

end Sys2Proof.Tests
end

