-- ==== Sys2Proof/Proofs/Fields.lean ====
section
/-! PROOFS. A bit field of a byte as a shift and a mask (00_scope.md R10). -/

namespace Sys2Proof.Proofs

/-- `(v >> lo) & mask = v[lo+len-1:lo]`, for words of every width. -/
theorem toNat_extractLsb'_eq_shift_and_mask {w : Nat} (v : BitVec w) (lo len : Nat) :
    (v.extractLsb' lo len).toNat = (v.toNat >>> lo) &&& (2 ^ len - 1) := by
  rw [BitVec.extractLsb'_toNat, Nat.and_two_pow_sub_one_eq_mod]

/-- `(v >> i) & 1 = v[i]`, for words of every width. -/
theorem getLsbD_iff_shift_and_one {w : Nat} (v : BitVec w) (i : Nat) :
    v.getLsbD i = true ↔ (v.toNat >>> i) &&& 1 ≠ 0 := by
  rw [← BitVec.testBit_toNat, Nat.testBit, bne_iff_ne, Nat.and_comm]

/-- Settles O5: each field has the shape of one of the two equalities above. -/
theorem fieldsAreShiftsAndMasks : Obligations.FieldsAreShiftsAndMasks := fun b =>
  ⟨toNat_extractLsb'_eq_shift_and_mask b 3 5,
   getLsbD_iff_shift_and_one b 2,
   toNat_extractLsb'_eq_shift_and_mask b 0 2,
   toNat_extractLsb'_eq_shift_and_mask b 0 6⟩

end Sys2Proof.Proofs
end

