-- ==== Sys2Proof/Proofs/Transaction.lean ====
section
/-! PROOFS. What one transaction answers: the four forms of the fetch, the decoder by frame-count code, the response of
each instruction, and from these that a step answers what the reference of 41_toc_decode.md R70 computes. -/

namespace Sys2Proof.Proofs

open Machine

/-! ### The fetch (20_memory.md R36) and the decoder (30_encoding.md R54), case by case -/

theorem codeField_cases (b : Byte) :
    codeField b = 0#2 ∨ codeField b = 1#2 ∨ codeField b = 2#2 ∨ codeField b = 3#2 := by
  generalize codeField b = c
  revert c; decide

section Fetch

variable {r : Request}

theorem fetch_of_pktLen_eq_zero (h : r.pktLen = 0) : r.fetch = [] := by
  simp [Request.fetch_eq, h]

theorem fetch_of_code_ne_three (h : r.pktLen ≠ 0) (hc : codeField r.byte0 ≠ 3#2) : r.fetch = [r.byte0] := by
  simp [Request.fetch_eq, h, hc]

theorem fetch_of_pktLen_eq_one (h : r.pktLen = 1) : r.fetch = [r.byte0] := by
  simp [Request.fetch_eq, h]

theorem fetch_of_code_three (h : 2 ≤ r.pktLen) (hc : codeField r.byte0 = 3#2) : r.fetch = [r.byte0, r.byte1] := by
  have h0 : r.pktLen ≠ 0 := by omega
  simp [Request.fetch_eq, h0, h, hc]

end Fetch

section Decode

variable {b0 : Byte} (rest : List Byte)

theorem decode_of_code_zero (hc : codeField b0 = 0#2) :
    decode (b0 :: rest) = .instr (.tocCode0 (cfgField b0) (stereoField b0)) rest := by
  simp [decode, hc]

theorem decode_of_code_one (hc : codeField b0 = 1#2) :
    decode (b0 :: rest) = .instr (.tocCode1 (cfgField b0) (stereoField b0)) rest := by
  simp [decode, hc]

theorem decode_of_code_two (hc : codeField b0 = 2#2) :
    decode (b0 :: rest) = .instr (.tocCode2 (cfgField b0) (stereoField b0)) rest := by
  simp [decode, hc]

theorem decode_of_code_three (b1 : Byte) (hc : codeField b0 = 3#2) :
    decode (b0 :: b1 :: rest) =
      .instr (.tocCode3 (cfgField b0) (stereoField b0) (some (countByteOf b1))) rest := by
  simp [decode, hc]

theorem decode_of_code_three_truncated (hc : codeField b0 = 3#2) :
    decode [b0] = .instr (.tocCode3 (cfgField b0) (stereoField b0) none) [] := by
  simp [decode, hc]

end Decode

/-! ### The response of an instruction (41_toc_decode.md R73 to R77) -/

/-- The header that configuration `cfg` of this machine's tables, `n` frames and a stereo flag give. -/
def headerOf (s : State) (cfg : BitVec 5) (n : BitVec 6) (stereo : Bool) : Header :=
  { config := s.romRead cfg, numFrames := n, stereo := stereo }

/-- What an instruction answers; `exec_eq` ties it to `exec`. -/
def answerOf (s : State) : Instr → Response
  | .tocCode0 cfg stereo => .ok (headerOf s cfg 1#6 stereo)
  | .tocCode1 cfg stereo => .ok (headerOf s cfg 2#6 stereo)
  | .tocCode2 cfg stereo => .ok (headerOf s cfg 2#6 stereo)
  | .tocCode3 _ _ none => .err .tooShort
  | .tocCode3 cfg stereo (some b) =>
    if b.count = 0#6 then .err .invalidFrameCount else .ok (headerOf s cfg b.count stereo)

/-- Everything an instruction can do: it ends the transaction with its response. -/
theorem exec_eq (i : Instr) (s : State) : exec i s = .next (s.finish (answerOf s i)) := by
  cases i with
  | tocCode0 cfg stereo => rfl
  | tocCode1 cfg stereo => rfl
  | tocCode2 cfg stereo => rfl
  | tocCode3 cfg stereo countByte =>
    cases countByte with
    | none => rfl
    | some b =>
      by_cases hb : b.count = 0#6
      · simp [exec, execTocCode3, answerOf, hb, raise_eq]
      · simp [exec, execTocCode3, answerOf, hb, returnHeader_eq, headerOf]

/-! ### The reference (41_toc_decode.md R70), case by case -/

section Reference

variable {r : Request} (s : State)

theorem reference_of_pktLen_eq_zero (h : r.pktLen = 0) : s.reference r = .err .tooShort := by
  simp [State.reference, decodeHeader, h]

theorem reference_of_code_zero (h : r.pktLen ≠ 0) (hc : codeField r.byte0 = 0#2) :
    s.reference r = .ok (headerOf s (cfgField r.byte0) 1#6 (stereoField r.byte0)) := by
  simp [State.reference, decodeHeader, headerOf, State.romRead, h, hc]

theorem reference_of_code_one (h : r.pktLen ≠ 0) (hc : codeField r.byte0 = 1#2) :
    s.reference r = .ok (headerOf s (cfgField r.byte0) 2#6 (stereoField r.byte0)) := by
  simp [State.reference, decodeHeader, headerOf, State.romRead, h, hc]

theorem reference_of_code_two (h : r.pktLen ≠ 0) (hc : codeField r.byte0 = 2#2) :
    s.reference r = .ok (headerOf s (cfgField r.byte0) 2#6 (stereoField r.byte0)) := by
  simp [State.reference, decodeHeader, headerOf, State.romRead, h, hc]

theorem reference_of_code_three_truncated (h : r.pktLen = 1) (hc : codeField r.byte0 = 3#2) :
    s.reference r = .err .tooShort := by
  simp [State.reference, decodeHeader, h, hc]

theorem reference_of_code_three (h : 2 ≤ r.pktLen) (hc : codeField r.byte0 = 3#2) :
    s.reference r =
      if countField r.byte1 = 0#6 then .err .invalidFrameCount
      else .ok (headerOf s (cfgField r.byte0) (countField r.byte1) (stereoField r.byte0)) := by
  have h0 : r.pktLen ≠ 0 := by omega
  have h2 : ¬ r.pktLen < 2 := by omega
  simp [State.reference, decodeHeader, headerOf, State.romRead, h0, h2, hc]

end Reference

/-! ### The step on a request -/

section Step

variable {s : State} {r : Request} {rest : List Request}

theorem step_presenting_of_decode {bytes : List Byte} {i : Instr} {after : List Byte}
    (hf : r.fetch = bytes) (hd : decode bytes = .instr i after) :
    step (s.presenting r rest) = .next (s.answered rest (answerOf s i)) := by
  rw [step_of_cons (State.presenting_pending s r rest), hf, hd]
  exact exec_eq i (s.presenting r rest)

theorem step_presenting_of_pktLen_eq_zero (h : r.pktLen = 0) :
    step (s.presenting r rest) = .next (s.answered rest (.err .tooShort)) := by
  rw [step_of_cons (State.presenting_pending s r rest), fetch_of_pktLen_eq_zero h]
  exact answerRejected_eq .noTocByte (s.presenting r rest)

end Step

/-- 41_toc_decode.md R70: a step answers what the reference computes, and changes nothing else. The cases are the length
0, and for the other lengths the frame-count code; code 3 splits again on whether there is a second byte. -/
theorem step_presenting (s : State) (r : Request) (rest : List Request) :
    step (s.presenting r rest) = .next (s.answered rest (s.reference r)) := by
  by_cases h0 : r.pktLen = 0
  · rw [reference_of_pktLen_eq_zero s h0]
    exact step_presenting_of_pktLen_eq_zero h0
  obtain hc | hc | hc | hc := codeField_cases r.byte0
  · rw [reference_of_code_zero s h0 hc]
    exact step_presenting_of_decode (fetch_of_code_ne_three h0 (by simp [hc])) (decode_of_code_zero [] hc)
  · rw [reference_of_code_one s h0 hc]
    exact step_presenting_of_decode (fetch_of_code_ne_three h0 (by simp [hc])) (decode_of_code_one [] hc)
  · rw [reference_of_code_two s h0 hc]
    exact step_presenting_of_decode (fetch_of_code_ne_three h0 (by simp [hc])) (decode_of_code_two [] hc)
  · by_cases h1 : r.pktLen = 1
    · rw [reference_of_code_three_truncated s h1 hc]
      exact step_presenting_of_decode (fetch_of_pktLen_eq_one h1) (decode_of_code_three_truncated hc)
    · have h2 : 2 ≤ r.pktLen := by omega
      rw [reference_of_code_three s h2 hc]
      exact step_presenting_of_decode (fetch_of_code_three h2 hc) (decode_of_code_three [] r.byte1 hc)

end Sys2Proof.Proofs
end

