-- ==== Sys2Proof/Proofs/Scope.lean ====
section
/-! PROOFS. The parameters of 00_scope.md R9: no response depends on the width of the length input or on which of the
instances that share the tables answers. -/

namespace Sys2Proof.Proofs

open Machine

/-! ### The length input -/

/-- A length input shows the length, or its largest value where the length does not fit. -/
theorem toNat_lengthPort (w n : Nat) : (lengthPort w n).toNat = min n (2 ^ w - 1) := by
  have hpos : 0 < 2 ^ w := Nat.two_pow_pos w
  rw [lengthPort, BitVec.toNat_ofNat]
  exact Nat.mod_eq_of_lt (by omega)

/-- With `LEN_W >= 2` it reports 0, 1 and "2 or more" correctly: its largest value is at least 3. -/
theorem min_toNat_lengthPort_two {w : Nat} (hw : 2 ≤ w) (n : Nat) : min (lengthPort w n).toNat 2 = min n 2 := by
  have hmax : 2 ^ 2 ≤ 2 ^ w := Nat.pow_le_pow_right (by decide) hw
  rw [toNat_lengthPort]
  omega

/-- The reference tests the length against 0 and against 2 only (41_toc_decode.md R80 item 1). -/
theorem decodeHeader_congr_pktLen (rom : Vector RomEntry 32) (bw : Vector Bandwidth 5) (b0 b1 : Byte) {m n : Nat}
    (h : min m 2 = min n 2) : decodeHeader rom bw m b0 b1 = decodeHeader rom bw n b0 b1 := by
  have hzero : m = 0 ↔ n = 0 := by omega
  have htwo : m < 2 ↔ n < 2 := by omega
  simp only [decodeHeader, hzero, htwo]

/-- A saturating length input of width at least 2 leaves the reference's response as it is. -/
theorem reference_throughLengthPort {w : Nat} (hw : 2 ≤ w) (s : State) (r : Request) :
    s.reference (r.throughLengthPort w) = s.reference r :=
  decodeHeader_congr_pktLen s.configRom s.bandwidthTable r.byte0 r.byte1 (min_toNat_lengthPort_two hw r.pktLen)

theorem Params.wf_iff (p : Config.Params) : p.wf = true ↔ 2 ≤ p.lenW ∧ 1 ≤ p.numDecoders := by
  simp [Config.Params.wf]

/-- Settles O21: both machines answer what the reference computes, and the reference does not see the width. -/
theorem lengthInputOfAnyWidthIsExact : Obligations.LengthInputOfAnyWidthIsExact := by
  intro p hp s r rest
  obtain ⟨hw, -⟩ := (Params.wf_iff p).mp hp
  refine ⟨s.reference r, step_presenting s r rest, ?_⟩
  rw [step_presenting, reference_throughLengthPort hw]

/-! ### The instances -/

/-- Of a machine the reference uses the two tables only. -/
theorem reference_congr_tables {s t : State} (h : SameTables s t) (r : Request) : s.reference r = t.reference r := by
  obtain ⟨hrom, hbw⟩ := h
  rw [State.reference, State.reference, hrom, hbw]

/-- Settles O23: the one response is that of any of the machines; there is one, since `NUM_DECODERS >= 1`. -/
theorem instancesAreOneFunction : Obligations.InstancesAreOneFunction := by
  intro p hp instances hlen hsame r
  obtain ⟨-, hnum⟩ := (Params.wf_iff p).mp hp
  obtain ⟨t, ht⟩ : ∃ t, t ∈ instances := List.exists_mem_of_length_pos (by omega)
  refine ⟨t.reference r, fun s hs rest => ?_⟩
  rw [step_presenting, reference_congr_tables (hsame s hs t ht)]

end Sys2Proof.Proofs
end

