-- ==== Sys2Proof/Proofs/State.lean ====
section
/-! PROOFS. One transaction as a change of the state (10_state.md R14, R33): what a step can do, what it leaves
unchanged, that it depends on the tables and the request alone, and that a list of requests is answered in order. -/

namespace Sys2Proof.Proofs

open Machine

/-! ### What a step can do -/

section Step

variable {s t : State} {r : Request} {rest : List Request}

theorem step_of_pending_nil (h : s.pending = []) : step s = .next s := by
  simp [step, State.current, h, idle_eq]

theorem presenting_of_pending_cons (h : s.pending = r :: rest) : s.presenting r rest = s := by
  rw [State.presenting, ← h]

theorem step_of_pending_cons (h : s.pending = r :: rest) : step s = .next (s.answered rest (s.reference r)) := by
  rw [← step_presenting, presenting_of_pending_cons h]

/-- Everything a step can do: it idles when no request waits, and otherwise it answers the first one as the reference of
41_toc_decode.md R70 does. -/
theorem step_cases (h : step s = .next t) :
    (s.pending = [] ∧ t = s) ∨
    ∃ r rest, s.pending = r :: rest ∧ t = s.answered rest (s.reference r) := by
  cases hp : s.pending with
  | nil =>
    rw [step_of_pending_nil hp] at h
    cases h
    exact .inl ⟨rfl, rfl⟩
  | cons r rest =>
    rw [step_of_pending_cons hp] at h
    cases h
    exact .inr ⟨r, rest, rfl, rfl⟩

end Step

/-- The response given can be read off the state after it. -/
theorem answered_inj {s : State} {rest : List Request} {a b : Response} :
    s.answered rest a = s.answered rest b ↔ a = b := by
  refine ⟨fun h => ?_, fun h => by rw [h]⟩
  have hlast := congrArg (·.responses.getLast?) h
  simpa using hlast

/-! ### One response for every request -/

/-- The two kinds of response, the errors by name (10_state.md R21, 60_exceptions.md R88). -/
theorem response_cases (a : Response) :
    (∃ h, a = .ok h) ∨ a = .err .tooShort ∨ a = .err .invalidFrameCount := by
  cases a with
  | ok h => exact .inl ⟨h, rfl⟩
  | err e =>
    cases e with
    | tooShort => exact .inr (.inl rfl)
    | invalidFrameCount => exact .inr (.inr rfl)

/-- No step stops (41_toc_decode.md R81). -/
theorem exists_step_eq_next (s : State) : ∃ t, step s = .next t := by
  cases hp : s.pending with
  | nil => exact ⟨s, step_of_pending_nil hp⟩
  | cons r rest => exact ⟨_, step_of_pending_cons hp⟩

/-- Settles O24: the one response is the reference's, and a second one would leave the same state behind. -/
theorem everyRequestHasOneResponse : Obligations.EveryRequestHasOneResponse := by
  refine ⟨exists_step_eq_next, fun s r rest => ⟨s.reference r, step_presenting s r rest, ?_, response_cases _⟩⟩
  intro b hb
  rw [step_presenting, Host.Outcome.next.injEq] at hb
  exact (answered_inj.mp hb).symm

/-- Settles O22: both machines answer what the reference computes, which uses the tables only. -/
theorem nothingPersistsBetweenTransactions : Obligations.NothingPersistsBetweenTransactions := by
  intro s t r rest rest' hst
  refine ⟨s.reference r, step_presenting s r rest, ?_⟩
  rw [step_presenting, reference_congr_tables hst]

/-! ### The frame of an operation -/

/-- Settles O25: each of the four operations ends the transaction with its response (`exec_eq`), so the request answered
leaves the list and those behind it move up as they are. -/
theorem operationFrame : Obligations.OperationFrame := by
  intro i s t h
  rw [exec_eq, Host.Outcome.next.injEq] at h
  subst h
  refine ⟨rfl, rfl, ⟨answerOf s i, rfl⟩, List.length_tail, fun k addr => ?_⟩
  rw [State.finish_pending, List.getElem?_tail]

/-! ### Requests presented one after another -/

@[simp] theorem reference_answered (s : State) (rest : List Request) (a : Response) (r : Request) :
    (s.answered rest a).reference r = s.reference r := rfl

/-- The state with `waiting` answered one after another (70_reset_and_hazards.md R106): the responses of the reference,
in order, and nothing left to answer. -/
def answeredAll (s : State) (waiting : List Request) : State :=
  { s with pending := [], responses := s.responses ++ waiting.map s.reference }

theorem answeredAll_nil {s : State} (h : s.pending = []) : answeredAll s [] = s := by
  rw [answeredAll, List.map_nil, List.append_nil, ← h]

theorem answeredAll_cons (s : State) (r : Request) (rest : List Request) :
    answeredAll s (r :: rest) = answeredAll (s.answered rest (s.reference r)) rest := by
  simp [answeredAll]

theorem steps_succ_of_step {n : Nat} {s t : State} (h : step s = .next t) : steps (n + 1) s = steps n t := by
  simp [steps, h]

/-- As many steps as requests wait answer them all: by induction on the requests that wait, each step answering the
first. -/
theorem steps_length_pending (waiting : List Request) (s : State) (h : s.pending = waiting) :
    steps waiting.length s = .next (answeredAll s waiting) := by
  induction waiting generalizing s with
  | nil => rw [answeredAll_nil h]; rfl
  | cons r rest ih =>
    rw [List.length_cons, steps_succ_of_step (step_of_pending_cons h), answeredAll_cons]
    exact ih (s.answered rest (s.reference r)) rfl

/-- Settles O28: `answeredAll` of the waiting requests is the end state of R106. -/
theorem waitingRequestsAllAnswered : Obligations.WaitingRequestsAllAnswered :=
  fun s => steps_length_pending s.pending s rfl

end Sys2Proof.Proofs
end

