-- ==== Sys2Proof/Proofs/Invariant.lean ====
section
/-! PROOFS. The invariant `StateInv`: reset meets it and every step keeps it (10_state.md R15, R19). -/

namespace Sys2Proof.Proofs

open Machine

/-- What the reference can answer (41_toc_decode.md R70, R82): an error, or the header of the request's configuration
code and stereo bit with a frame count that is not 0. -/
theorem reference_cases (s : State) (r : Request) :
    (∃ e, s.reference r = .err e) ∨
    ∃ n, n ≠ 0#6 ∧ s.reference r = .ok (headerOf s (cfgField r.byte0) n (stereoField r.byte0)) := by
  by_cases h0 : r.pktLen = 0
  · exact .inl ⟨_, reference_of_pktLen_eq_zero s h0⟩
  obtain hc | hc | hc | hc := codeField_cases r.byte0
  · exact .inr ⟨1#6, by decide, reference_of_code_zero s h0 hc⟩
  · exact .inr ⟨2#6, by decide, reference_of_code_one s h0 hc⟩
  · exact .inr ⟨2#6, by decide, reference_of_code_two s h0 hc⟩
  · by_cases h1 : r.pktLen = 1
    · exact .inl ⟨_, reference_of_code_three_truncated s h1 hc⟩
    · have href := reference_of_code_three s (by omega) hc
      by_cases hn : countField r.byte1 = 0#6
      · exact .inl ⟨.invalidFrameCount, by rw [href, if_pos hn]⟩
      · exact .inr ⟨countField r.byte1, hn, by rw [href, if_neg hn]⟩

theorem configInRom_romRead {s : State} (h : TablesFixed s) (k : BitVec 5) : ConfigInRom (s.romRead k) := by
  obtain ⟨hrom, hbw⟩ := h
  exact ⟨k, by rw [State.romRead, hrom, hbw]⟩

/-- Over the constant tables every response is one the block may give. -/
theorem legal_reference {s : State} (h : TablesFixed s) (r : Request) : (s.reference r).Legal := by
  obtain ⟨e, he⟩ | ⟨n, hn, hok⟩ := reference_cases s r
  · rw [he]
    trivial
  · rw [hok]
    exact ⟨configInRom_romRead h _, hn⟩

/-- Answering the first request keeps the invariant: the tables are not written, the requests left waited before, and
the response added is the reference's. -/
theorem stateInv_answered {s : State} {r : Request} {rest : List Request} (hp : s.pending = r :: rest)
    (h : StateInv s) : StateInv (s.answered rest (s.reference r)) := by
  obtain ⟨htables, hpackets, hlegal⟩ := h
  refine ⟨htables, fun q hq => hpackets q ?_, fun a ha => ?_⟩
  · rw [hp]
    exact List.mem_cons_of_mem r hq
  · rw [State.answered_responses, List.mem_append, List.mem_singleton] at ha
    obtain ha | rfl := ha
    · exact hlegal a ha
    · exact legal_reference htables r

/-- Settles O29: a step idles or answers the first request. -/
theorem everyStepKeepsInv : Obligations.EveryStepKeepsInv := by
  intro s t hinv hstep
  obtain ⟨-, rfl⟩ | ⟨r, rest, hp, rfl⟩ := step_cases hstep
  · exact hinv
  · exact stateInv_answered hp hinv

/-! ### Reset -/

theorem tablesFixed_reset : TablesFixed State.reset := ⟨rfl, rfl⟩

/-- Settles O30: the tables hold their constants, and the two lists are empty. -/
theorem resetMeetsInv : Obligations.ResetMeetsInv :=
  ⟨tablesFixed_reset, State.reset_packets_wf, fun _ ha => nomatch ha⟩

/-- Settles O31: the last clause holds since the ports show the last response, and none has been given. -/
theorem resetState : Obligations.ResetState := ⟨tablesFixed_reset, rfl, rfl, rfl⟩

end Sys2Proof.Proofs
end

