-- ==== Sys2Proof/Proofs/Outputs.lean ====
section
/-! PROOFS. The values on the output ports (10_state.md R22 to R31) and the full duration (42_duration.md R83). -/

namespace Sys2Proof.Proofs

open Machine

/-! ### The codes -/

/-- 10_state.md R22: the status says success exactly when the response carries header ports. -/
theorem headerPorts_isSome_iff (a : Response) : a.headerPorts.isSome = true ↔ a.status = 0b00#2 := by
  cases a with
  | ok h => exact ⟨fun _ => rfl, fun _ => rfl⟩
  | err e => cases e <;> decide

theorem status_ne_three (a : Response) : a.status ≠ 0b11#2 := by
  cases a with
  | ok h => exact (by decide : 0b00#2 ≠ 0b11#2)
  | err e => cases e <;> decide

theorem codecCode_ne_three (c : Codec) : c.code ≠ 0b11#2 := by
  cases c <;> decide

theorem bwIdxCode_lt_five (b : BwIdx) : b.code.toNat < 5 := by
  cases b <;> decide

/-- Settles O39: the codes as they are defined, and for each port that no value has one of the codes left over. -/
theorem portCodes : Obligations.PortCodes :=
  ⟨fun _ => rfl, rfl, rfl, status_ne_three, rfl, rfl, rfl, codecCode_ne_three, rfl, rfl, rfl, rfl, rfl,
    bwIdxCode_lt_five⟩

/-! ### What the entries of the constant ROM hold -/

section Rom

variable {c : CodecConfig}

/-- The six frame durations of 42_duration.md R84. -/
theorem frameDuration_mem_of_configInRom (h : ConfigInRom c) :
    c.frameDuration ∈ [2500#16, 5000#16, 10000#16, 20000#16, 40000#16, 60000#16] := by
  obtain ⟨k, rfl⟩ := h
  revert k; decide

theorem frameDuration_bounds_of_configInRom (h : ConfigInRom c) :
    2500 ≤ c.frameDuration.toNat ∧ c.frameDuration.toNat ≤ 60000 := by
  obtain ⟨k, rfl⟩ := h
  revert k; decide

/-- The largest constants of 40_config_rom.md R61 are those of FB. -/
theorem bandwidth_le_of_configInRom (h : ConfigInRom c) :
    c.bandwidth.bandwidthCode.toNat ≤ 20 ∧ c.bandwidth.sampleRateKHz.toNat ≤ 48 := by
  obtain ⟨k, rfl⟩ := h
  revert k; decide

end Rom

/-! ### The full duration -/

/-- The 22-bit product is exact: a 6-bit count times a 16-bit duration is below `2 ^ 22`. -/
theorem toNat_fullDuration (h : Header) :
    h.fullDuration.toNat = h.numFrames.toNat * h.config.frameDuration.toNat := by
  have hlt : h.numFrames.toNat * h.config.frameDuration.toNat < 2 ^ 6 * 2 ^ 16 :=
    Nat.mul_lt_mul'' h.numFrames.isLt h.config.frameDuration.isLt
  rw [Header.fullDuration, BitVec.toNat_ofNat]
  exact Nat.mod_eq_of_lt hlt

theorem numFrames_bounds {n : BitVec 6} (h : n ≠ 0#6) : 1 ≤ n.toNat ∧ n.toNat ≤ 63 := by
  bv_omega

/-- From 1 frame of 2500 microseconds to 63 frames of 60000 microseconds. -/
theorem fullDuration_bounds {h : Header} (hc : ConfigInRom h.config) (hn : h.numFrames ≠ 0#6) :
    2500 ≤ h.fullDuration.toNat ∧ h.fullDuration.toNat ≤ 3780000 := by
  obtain ⟨hn1, hn63⟩ := numFrames_bounds hn
  obtain ⟨hlo, hhi⟩ := frameDuration_bounds_of_configInRom hc
  rw [toNat_fullDuration]
  exact ⟨Nat.mul_le_mul hn1 hlo, Nat.mul_le_mul hn63 hhi⟩

/-- Settles O38: the shortest duration is one frame of entry 16 (CELT, 2500 microseconds), the longest 63 frames of
entry 3 (SILK, 60000 microseconds). -/
theorem fullDurationIsExact : Obligations.FullDurationIsExact :=
  ⟨toNat_fullDuration, fun _ => fullDuration_bounds,
    ⟨headerOf State.reset 16#5 1#6 false, ⟨16#5, rfl⟩, by decide, by decide⟩,
    ⟨headerOf State.reset 3#5 63#6 false, ⟨3#5, rfl⟩, by decide, by decide⟩⟩

/-! ### What the ports show -/

/-- In a state that meets the invariant the ports show a response that the block may give. -/
theorem exists_legal_of_outputs {s : State} {p : Ports} (hinv : StateInv s) (hp : s.outputs = some p) :
    ∃ a : Response, a.Legal ∧ a.ports = p := by
  obtain ⟨-, -, hlegal⟩ := hinv
  obtain ⟨a, ha, rfl⟩ := Option.map_eq_some_iff.mp hp
  exact ⟨a, hlegal a (List.mem_of_getLast? ha), rfl⟩

/-- Settles O41: the status by its codes, the header ports from the ROM entry and the frame count of a legal header. -/
theorem portValuesInRange : Obligations.PortValuesInRange := by
  intro s p hinv hp
  obtain ⟨a, hlegal, rfl⟩ := exists_legal_of_outputs hinv hp
  refine ⟨status_ne_three a, headerPorts_isSome_iff a, fun ports hports => ?_⟩
  cases a with
  | err e => cases hports
  | ok h =>
    cases hports
    obtain ⟨hc, hn⟩ := hlegal
    obtain ⟨hn1, hn63⟩ := numFrames_bounds hn
    obtain ⟨hlo, hhi⟩ := fullDuration_bounds hc hn
    obtain ⟨hcode, hrate⟩ := bandwidth_le_of_configInRom hc
    exact ⟨codecCode_ne_three _, Nat.le_of_lt_succ (bwIdxCode_lt_five _), frameDuration_mem_of_configInRom hc,
      hn1, hn63, hlo, hhi, hcode, hrate⟩

end Sys2Proof.Proofs
end

