-- ==== Sys2Proof/Proofs/Fetch.lean ====
section
/-! PROOFS. What the fetch depends on (20_memory.md R36, R42). -/

namespace Sys2Proof.Proofs

open Machine

/-- Settles O7: in each form of the fetch the bytes it gives are bytes on which the two requests agree. -/
theorem fetchReadsOnlyHeaderBytes : Obligations.FetchReadsOnlyHeaderBytes := by
  intro r r' hlen hbyte0 hbyte1
  by_cases h0 : r.pktLen = 0
  · rw [fetch_of_pktLen_eq_zero h0, fetch_of_pktLen_eq_zero (hlen ▸ h0)]
  have h0' : r'.pktLen ≠ 0 := hlen ▸ h0
  have hb0 : r.byte0 = r'.byte0 := hbyte0 (Nat.one_le_iff_ne_zero.mpr h0)
  by_cases hc : codeField r.byte0 = 3#2
  · have hc' : codeField r'.byte0 = 3#2 := hb0 ▸ hc
    by_cases h1 : r.pktLen = 1
    · rw [fetch_of_pktLen_eq_one h1, fetch_of_pktLen_eq_one (hlen ▸ h1), hb0]
    · have h2 : 2 ≤ r.pktLen := by omega
      rw [fetch_of_code_three h2 hc, fetch_of_code_three (hlen ▸ h2) hc', hb0, hbyte1 h2 hc]
  · have hc' : codeField r'.byte0 ≠ 3#2 := hb0 ▸ hc
    rw [fetch_of_code_ne_three h0 hc, fetch_of_code_ne_three h0' hc', hb0]

end Sys2Proof.Proofs
end

