-- ==== Sys2Proof/Proofs/Encoding.lean ====
section
/-! PROOFS. Decoder and encoder agree in both directions (30_encoding.md R47 to R49, R54, R60), and every TOC byte
selects one operation (R56). -/

namespace Sys2Proof.Proofs

open Laws

/-! ### The fields of an assembled byte, and a byte assembled from its fields -/

@[simp] theorem cfgField_tocByte (cfg : BitVec 5) (stereo : Bool) (c : BitVec 2) :
    cfgField (tocByte cfg stereo c) = cfg :=
  (BitVec.extractLsb'_append_eq_of_le (by decide : 2 ≤ 3)).trans BitVec.extractLsb'_append_eq_left

@[simp] theorem stereoField_tocByte (cfg : BitVec 5) (stereo : Bool) (c : BitVec 2) :
    stereoField (tocByte cfg stereo c) = stereo := by
  rw [stereoField, tocByte, BitVec.getLsbD_append, BitVec.getLsbD_append]
  simp

@[simp] theorem countByteOf_byte (b : CountByte) : countByteOf b.byte = b := by
  have hhi : hiField b.byte = b.hi := BitVec.extractLsb'_append_eq_left
  have hcount : countField b.byte = b.count := BitVec.extractLsb'_append_eq_right
  rw [countByteOf, hhi, hcount]

/-- One bit as a word. -/
theorem ofBool_getLsbD {w : Nat} (v : BitVec w) (i : Nat) : BitVec.ofBool (v.getLsbD i) = v.extractLsb' i 1 := by
  ext j hj
  have hj0 : j = 0 := by omega
  simp [hj0]

/-- The three fields of a TOC byte cover it (30_encoding.md R47). -/
theorem tocByte_fields (b : Byte) : tocByte (cfgField b) (stereoField b) (codeField b) = b := by
  have hhigh : cfgField b ++ BitVec.ofBool (stereoField b) = b.extractLsb' 2 6 := by
    rw [stereoField, ofBool_getLsbD]
    exact BitVec.extractLsb'_append_extractLsb'_eq_extractLsb' rfl
  rw [tocByte, hhigh]
  exact BitVec.extractLsb'_append_extractLsb' (w := 6) (len := 2)

theorem tocByte_of_codeField_eq {b : Byte} {c : BitVec 2} (hc : codeField b = c) :
    tocByte (cfgField b) (stereoField b) c = b := by
  rw [← hc, tocByte_fields]

/-- The two fields of a frame-count byte cover it, the ignored bits 7..6 included (30_encoding.md R48). -/
theorem byte_countByteOf (b : Byte) : (countByteOf b).byte = b :=
  BitVec.extractLsb'_append_extractLsb' (w := 2) (len := 6)

/-! ### From an instruction to its bytes and back -/

/-- Settles O1: the code of the TOC byte selects the decoder's branch, and the fields give the operands back. A
truncated code-3 header is not whole. -/
theorem decodeOfEncodedHeader : Obligations.DecodeOfEncodedHeader := by
  intro i rest hwf
  cases i with
  | tocCode0 cfg stereo =>
    simp [encode, decode_of_code_zero rest (codeField_tocByte cfg stereo 0#2)]
  | tocCode1 cfg stereo =>
    simp [encode, decode_of_code_one rest (codeField_tocByte cfg stereo 1#2)]
  | tocCode2 cfg stereo =>
    simp [encode, decode_of_code_two rest (codeField_tocByte cfg stereo 2#2)]
  | tocCode3 cfg stereo countByte =>
    cases countByte with
    | none => cases hwf
    | some b =>
      simp [encode, decode_of_code_three rest b.byte (codeField_tocByte cfg stereo 3#2)]

/-- Settles O3: the truncated form, whose operands are the fields of the TOC byte. -/
theorem truncatedCode3Decodes : Obligations.TruncatedCode3Decodes := by
  intro cfg stereo
  rw [decode_of_code_three_truncated (codeField_tocByte cfg stereo 3#2), cfgField_tocByte, stereoField_tocByte]

/-- Settles O6: four closed words, each run through the decoder. -/
theorem writtenOutHeadersDecode : Obligations.WrittenOutHeadersDecode :=
  ⟨by decide, by decide, by decide, by decide⟩

/-! ### From bytes to an instruction -/

/-- The operation and the operands of `i` are the fields of the TOC byte `b0`. -/
abbrev HasFieldsOf (i : Instr) (b0 : Byte) : Prop :=
  i.code = codeField b0 ∧ i.cfg = cfgField b0 ∧ i.stereo = stereoField b0

/-- A TOC byte of code 0, 1 or 2 is a whole header (30_encoding.md R49). -/
theorem exists_decode_of_code_ne_three {b0 : Byte} (hc : codeField b0 ≠ 3#2) (rest : List Byte) :
    ∃ i : Instr, decode (b0 :: rest) = .instr i rest ∧ encode i = [b0] ∧
      i.wf = true ∧ i.headerBytes = 1 ∧ HasFieldsOf i b0 := by
  obtain h | h | h | h := codeField_cases b0
  · exact ⟨_, decode_of_code_zero rest h, congrArg ([·]) (tocByte_of_codeField_eq h), rfl, rfl, h.symm, rfl, rfl⟩
  · exact ⟨_, decode_of_code_one rest h, congrArg ([·]) (tocByte_of_codeField_eq h), rfl, rfl, h.symm, rfl, rfl⟩
  · exact ⟨_, decode_of_code_two rest h, congrArg ([·]) (tocByte_of_codeField_eq h), rfl, rfl, h.symm, rfl, rfl⟩
  · exact absurd h hc

/-- Settles O4: code 3 takes the second byte when there is one; the other codes leave it. -/
theorem everyTocByteSelectsItsOperation : Obligations.EveryTocByteSelectsItsOperation := by
  refine ⟨fun b0 b1 rest => ?_, fun b0 => ?_⟩
  · by_cases hc : codeField b0 = 3#2
    · rw [if_pos hc, if_pos hc]
      exact ⟨_, decode_of_code_three rest b1 hc, rfl, rfl, hc.symm, rfl, rfl⟩
    · obtain ⟨i, hdecode, -, hwf, hbytes, hfields⟩ := exists_decode_of_code_ne_three hc (b1 :: rest)
      rw [if_neg hc, if_neg hc]
      exact ⟨i, hdecode, hwf, hbytes, hfields⟩
  · by_cases hc : codeField b0 = 3#2
    · exact ⟨_, decode_of_code_three_truncated hc, hc.symm, rfl, rfl⟩
    · obtain ⟨i, hdecode, -, -, -, hfields⟩ := exists_decode_of_code_ne_three hc []
      exact ⟨i, hdecode, hfields⟩

/-- Whatever follows a TOC byte, it decodes, and to the encoding of what was read. -/
theorem exists_decode_encode (b0 : Byte) (tail : List Byte) :
    ∃ (i : Instr) (rest : List Byte), decode (b0 :: tail) = .instr i rest ∧ encode i ++ rest = b0 :: tail := by
  by_cases hc : codeField b0 = 3#2
  · cases tail with
    | nil => exact ⟨_, [], decode_of_code_three_truncated hc, by simp [encode, tocByte_of_codeField_eq hc]⟩
    | cons b1 rest =>
      exact ⟨_, rest, decode_of_code_three rest b1 hc,
        by simp [encode, tocByte_of_codeField_eq hc, byte_countByteOf]⟩
  · obtain ⟨i, hdecode, hencode, -⟩ := exists_decode_of_code_ne_three hc tail
    exact ⟨i, tail, hdecode, by rw [hencode, List.singleton_append]⟩

/-- Settles O2: bytes that decode begin with a TOC byte, and what they decode to is unique. -/
theorem encodeOfDecodedBytes : Obligations.EncodeOfDecodedBytes := by
  intro bytes i rest h
  cases bytes with
  | nil => cases h
  | cons b0 tail =>
    obtain ⟨j, rest', hdecode, hencode⟩ := exists_decode_encode b0 tail
    cases hdecode.symm.trans h
    exact hencode

end Sys2Proof.Proofs
end

