-- ==== Sys2Proof/Proofs/Operations.lean ====
section
/-! PROOFS. The operations on a request and on their operands: the step runs what the bytes decode to (41_toc_decode.md
R70), the empty packet (30_encoding.md R55), `TOC_CODE3` on its operands (41_toc_decode.md R77) and the ignored bits of
its frame-count byte (30_encoding.md R58). -/

namespace Sys2Proof.Proofs

open Machine

/-- Settles O8: the step is a match on what the fetched bytes decode to. -/
theorem stepRunsDecodedInstruction : Obligations.StepRunsDecodedInstruction := by
  intro s r rest i after h
  rw [step_of_cons (State.presenting_pending s r rest), h]

/-- Settles O11: nothing is fetched, so nothing is decoded. -/
theorem emptyPacketIsTooShort : Obligations.EmptyPacketIsTooShort := by
  intro s r rest h
  refine ⟨?_, step_presenting_of_pktLen_eq_zero h⟩
  rw [fetch_of_pktLen_eq_zero h]
  rfl

/-! ### The frame-count byte -/

section CountByte

variable (s : State) (cfg : BitVec 5) (stereo : Bool) {b : CountByte}

theorem answerOf_tocCode3_of_count_ne_zero (hb : b.count ≠ 0#6) :
    answerOf s (.tocCode3 cfg stereo (some b)) = .ok (headerOf s cfg b.count stereo) :=
  if_neg hb

theorem answerOf_tocCode3_of_count_eq_zero (hb : b.count = 0#6) :
    answerOf s (.tocCode3 cfg stereo (some b)) = .err .invalidFrameCount :=
  if_pos hb

end CountByte

/-- An instruction answers the first request waiting. -/
theorem exec_eq_answered (i : Instr) (s : State) : exec i s = .next (s.answered s.pending.tail (answerOf s i)) :=
  exec_eq i s

/-- Settles O15: the response of `TOC_CODE3` by whether its frame-count byte is there and its count is 0. -/
theorem tocCode3OnOperands : Obligations.TocCode3OnOperands := by
  intro cfg stereo s
  refine ⟨fun b hb => ?_, fun hi => ?_, exec_eq_answered _ s⟩
  · rw [exec_eq_answered, answerOf_tocCode3_of_count_ne_zero s cfg stereo hb, headerOf]
  · rw [exec_eq_answered, answerOf_tocCode3_of_count_eq_zero s cfg stereo rfl]

/-- The reference reads byte 1 through its count alone (41_toc_decode.md R77, 30_encoding.md R58). -/
theorem decodeHeader_congr_countField (rom : Vector RomEntry 32) (bw : Vector Bandwidth 5) (n : Nat) (b0 : Byte)
    {b1 b1' : Byte} (h : countField b1 = countField b1') :
    decodeHeader rom bw n b0 b1 = decodeHeader rom bw n b0 b1' := by
  simp only [decodeHeader, h]

/-- Settles O18: the response of the operation reads the count alone, and so does the reference, which every step
answers. -/
theorem highBitsOfByte1Ignored : Obligations.HighBitsOfByte1Ignored := by
  refine ⟨fun cfg stereo hi hi' n s => ?_, fun s r r' rest hlen hbyte0 hcount => ?_⟩
  · have hanswer : answerOf s (.tocCode3 cfg stereo (some ⟨hi, n⟩)) =
        answerOf s (.tocCode3 cfg stereo (some ⟨hi', n⟩)) := rfl
    rw [exec_eq, exec_eq, hanswer]
  · have href : s.reference r' = s.reference r := by
      rw [State.reference, State.reference, hlen, hbyte0]
      exact decodeHeader_congr_countField _ _ _ _ hcount
    exact ⟨s.reference r, step_presenting s r rest, href ▸ step_presenting s r' rest⟩

end Sys2Proof.Proofs
end

