-- ==== Sys2Proof/Proofs/ConfigRom.lean ====
section
/-! PROOFS. The ConfigTable ROM and the Bandwidth constants (40_config_rom.md R61 to R68). -/

namespace Sys2Proof.Proofs

open Machine

/-! ### Reading the constant tables -/

theorem bandwidth_eq_contents {s : State} (h : TablesFixed s) (i : BwIdx) :
    s.bandwidth i = bandwidthContents[i.row] := by
  obtain ⟨-, hbw⟩ := h
  rw [State.bandwidth, hbw]

theorem romRead_eq_romLookup_contents {s : State} (h : TablesFixed s) :
    s.romRead = romLookup configRomContents bandwidthContents := by
  obtain ⟨hrom, hbw⟩ := h
  funext k
  rw [State.romRead, hrom, hbw]

/-- Settles O36: each constant is read from the table at its row. -/
theorem bandwidthConstants : Obligations.BandwidthConstants := fun _ h =>
  ⟨⟨bandwidth_eq_contents h .nb, rfl⟩, ⟨bandwidth_eq_contents h .mb, rfl⟩, ⟨bandwidth_eq_contents h .wb, rfl⟩,
    ⟨bandwidth_eq_contents h .swb, rfl⟩, ⟨bandwidth_eq_contents h .fb, rfl⟩⟩

/-- Settles O32: over the constant tables the 32 reads are a closed list. -/
theorem configTableRows : Obligations.ConfigTableRows := by
  intro s h
  rw [romRead_eq_romLookup_contents h]
  decide

/-! ### The closed form -/

/-- The table of 40_config_rom.md R63 against the closed form of R65, entry by entry. -/
theorem configRomContents_eq_closedForm : ∀ k : BitVec 5, configRomContents[k.toNat]'k.isLt = romClosedForm k := by
  decide

/-- Settles O33: the read takes the entry, which is the closed form's, and the Bandwidth constant its index names. -/
theorem configTableClosedForm : Obligations.ConfigTableClosedForm := by
  intro s h k
  obtain ⟨hrom, -⟩ := h
  rw [State.romRead, hrom, ← configRomContents_eq_closedForm]
  rfl

/-! ### The codec groups -/

section Groups

variable {k : BitVec 5}

theorem silkDuration_mem (q : BitVec 2) : silkDuration q ∈ [10000#16, 20000#16, 40000#16, 60000#16] := by
  revert q; decide

theorem celtDuration_mem (q : BitVec 2) : celtDuration q ∈ [2500#16, 5000#16, 10000#16, 20000#16] := by
  revert q; decide

theorem romClosedForm_of_le_eleven (h : k.toNat ≤ 11) :
    (romClosedForm k).codec = .silk ∧ (romClosedForm k).bwIdx ∈ [.nb, .mb, .wb] ∧
      (romClosedForm k).frameDurUs ∈ [10000#16, 20000#16, 40000#16, 60000#16] := by
  rw [romClosedForm, if_pos (Nat.lt_succ_of_le h)]
  refine ⟨rfl, ?_, silkDuration_mem _⟩
  dsimp only
  split_ifs <;> decide

theorem romClosedForm_of_twelve_le_of_le_fifteen (h : 12 ≤ k.toNat ∧ k.toNat ≤ 15) :
    (romClosedForm k).codec = .hybrid ∧ (romClosedForm k).bwIdx ∈ [.swb, .fb] ∧
      (romClosedForm k).frameDurUs ∈ [10000#16, 20000#16] := by
  obtain ⟨hlo, hhi⟩ := h
  rw [romClosedForm, if_neg (Nat.not_lt.mpr hlo), if_pos (Nat.lt_succ_of_le hhi)]
  refine ⟨rfl, ?_, ?_⟩
  · dsimp only
    split <;> decide
  · dsimp only
    split <;> decide

theorem romClosedForm_of_sixteen_le (h : 16 ≤ k.toNat) :
    (romClosedForm k).codec = .celt ∧ (romClosedForm k).bwIdx ∈ [.nb, .wb, .swb, .fb] ∧
      (romClosedForm k).frameDurUs ∈ [2500#16, 5000#16, 10000#16, 20000#16] := by
  rw [romClosedForm, if_neg (by omega), if_neg (by omega)]
  refine ⟨rfl, ?_, celtDuration_mem _⟩
  dsimp only
  split_ifs <;> decide

end Groups

/-- Every value listed is taken at a code of the range `P`, when the codes `ks`, all in `P`, give the list. -/
theorem forall_mem_exists_of_map_eq {α : Type} {f : BitVec 5 → α} {P : BitVec 5 → Prop} {values : List α}
    (ks : List (BitVec 5)) (hvalues : ks.map f = values) (hks : ∀ k ∈ ks, P k) :
    ∀ v ∈ values, ∃ k, P k ∧ f k = v := by
  subst hvalues
  exact List.forall_mem_map.mpr fun k hk => ⟨k, hks k hk, rfl⟩

/-- Settles O34: what a group has by the branches of the closed form, and that it has each of them by codes that give
them. The range of the Hybrid codes is bracketed first, as one condition. -/
theorem codecGroups : Obligations.CodecGroups := by
  intro s h
  simp only [configTableClosedForm s h, ← and_assoc (a := 12 ≤ BitVec.toNat _)]
  exact ⟨fun k => ⟨romClosedForm_of_le_eleven, romClosedForm_of_twelve_le_of_le_fifteen, romClosedForm_of_sixteen_le⟩,
    forall_mem_exists_of_map_eq [0, 4, 8] rfl (by decide),
    forall_mem_exists_of_map_eq [0, 1, 2, 3] rfl (by decide),
    forall_mem_exists_of_map_eq [12, 14] rfl (by decide),
    forall_mem_exists_of_map_eq [12, 13] rfl (by decide),
    forall_mem_exists_of_map_eq [16, 20, 24, 28] rfl (by decide),
    forall_mem_exists_of_map_eq [16, 17, 18, 19] rfl (by decide)⟩

/-! ### Distinct entries -/

/-- An entry as 40_config_rom.md R66 compares it: the bandwidth by its value. -/
def entryTriple (e : RomEntry) : Codec × BitVec 16 × Bandwidth :=
  (e.codec, e.frameDurUs, bandwidthContents[e.bwIdx.row])

theorem nodup_entryTriples : (configRomContents.toList.map entryTriple).Nodup := by
  decide

theorem entryTriple_contents_inj {j k : BitVec 5}
    (h : entryTriple (configRomContents[j.toNat]'j.isLt) = entryTriple (configRomContents[k.toNat]'k.isLt)) :
    j = k := by
  have hlt (i : BitVec 5) : i.toNat < (configRomContents.toList.map entryTriple).length := by
    simpa using i.isLt
  exact BitVec.eq_of_toNat_eq ((nodup_entryTriples.getElem_inj_iff (hi := hlt j) (hj := hlt k)).mp (by simpa using h))

/-- Settles O35: no triple stands twice in the table, so a configuration gives its code back. -/
theorem configsPairwiseDistinct : Obligations.ConfigsPairwiseDistinct := by
  intro s h
  have hinj : ∀ j k : BitVec 5, (s.romRead j).codec = (s.romRead k).codec →
      (s.romRead j).frameDuration = (s.romRead k).frameDuration →
      (s.romRead j).bandwidth = (s.romRead k).bandwidth → j = k := by
    intro j k hcodec hduration hbandwidth
    rw [romRead_eq_romLookup_contents h] at hcodec hduration hbandwidth
    exact entryTriple_contents_inj (Prod.ext hcodec (Prod.ext hduration hbandwidth))
  refine ⟨hinj, fun b b' hne heq => hne (hinj _ _ ?_ ?_ ?_)⟩ <;> rw [heq]

/-! ### The ROM word -/

@[simp] theorem codecOfCode_code (c : Codec) : codecOfCode c.code = some c := by
  cases c <;> rfl

@[simp] theorem bwIdxOfCode_code (b : BwIdx) : bwIdxOfCode b.code = some b := by
  cases b <;> rfl

/-- An entry of any codec, duration and bandwidth is read back from its word: the three fields do not overlap. -/
theorem romEntryOfWord_word (e : RomEntry) : romEntryOfWord e.word = some e := by
  have hcodec : e.word.extractLsb' 0 2 = e.codec.code := BitVec.extractLsb'_append_eq_right
  have hbw : e.word.extractLsb' 2 3 = e.bwIdx.code :=
    (BitVec.extractLsb'_append_eq_of_le (by decide : 2 ≤ 2)).trans BitVec.extractLsb'_append_eq_right
  have hduration : e.word.extractLsb' 5 16 = e.frameDurUs :=
    (BitVec.extractLsb'_append_eq_of_le (by decide : 2 ≤ 5)).trans BitVec.extractLsb'_append_eq_left
  simp [romEntryOfWord, hcodec, hbw, hduration]

/-- Settles O37: the words are a closed list, and every entry is read back from its word. -/
theorem romWordLayout : Obligations.RomWordLayout :=
  ⟨by decide, fun e _ => romEntryOfWord_word e⟩

end Sys2Proof.Proofs
end

