-- ==== Sys2Proof/Proofs/TocDecode.lean ====
section
/-! PROOFS. The decode of 41_toc_decode.md as a step on a request: the reference of R70, the operations `TOC_CODE0` to
`TOC_CODE3` (R73 to R77), what a response depends on (R80), what holds of a success (R82) and the ports (R79). -/

namespace Sys2Proof.Proofs

open Machine Laws

/-- Settles O19: the reference of a state is `decodeHeader` over its tables. -/
theorem stepAgreesWithDecodeHeader : Obligations.StepAgreesWithDecodeHeader := step_presenting

section Step

variable {s t : State} {r r' : Request} {rest : List Request} {a : Response}

theorem step_presenting_of_reference_eq (h : s.reference r = a) :
    step (s.presenting r rest) = .next (s.answered rest a) :=
  h ▸ step_presenting s r rest

/-- Requests with one reference get one response. -/
theorem exists_same_response (h : s.reference r = s.reference r') :
    ∃ a : Response, step (s.presenting r rest) = .next (s.answered rest a) ∧
      step (s.presenting r' rest) = .next (s.answered rest a) :=
  ⟨s.reference r, step_presenting s r rest, step_presenting_of_reference_eq h.symm⟩

/-- The last response after a step on a request is the one given to it. -/
theorem eq_answered_of_step_presenting (hstep : step (s.presenting r rest) = .next t)
    (hlast : t.responses.getLast? = some a) : s.reference r = a ∧ t = s.answered rest a := by
  rw [step_presenting, Host.Outcome.next.injEq] at hstep
  subst hstep
  have href : s.reference r = a := by simpa using hlast
  exact ⟨href, by rw [href]⟩

end Step

/-! ### The operations (R73 to R77) -/

/-- Settles O12: what `TOC_CODE0` answers on its operands, and what the reference answers for code 0. -/
theorem tocCode0GivesOneFrame : Obligations.TocCode0GivesOneFrame :=
  ⟨fun _ _ s => exec_eq_answered _ s, fun s _ _ hlen hc =>
    step_presenting_of_reference_eq (reference_of_code_zero s (Nat.one_le_iff_ne_zero.mp hlen) hc)⟩

/-- Settles O13: what `TOC_CODE1` answers on its operands, and what the reference answers for code 1. -/
theorem tocCode1GivesTwoFrames : Obligations.TocCode1GivesTwoFrames :=
  ⟨fun _ _ s => exec_eq_answered _ s, fun s _ _ hlen hc =>
    step_presenting_of_reference_eq (reference_of_code_one s (Nat.one_le_iff_ne_zero.mp hlen) hc)⟩

/-- Settles O14: what `TOC_CODE2` answers on its operands, and what the reference answers for code 2. -/
theorem tocCode2GivesTwoFrames : Obligations.TocCode2GivesTwoFrames :=
  ⟨fun _ _ s => exec_eq_answered _ s, fun s _ _ hlen hc =>
    step_presenting_of_reference_eq (reference_of_code_two s (Nat.one_le_iff_ne_zero.mp hlen) hc)⟩

/-- Settles O16: a packet of one byte ends before the count; a longer one is answered by its count. -/
theorem tocCode3OnRequests : Obligations.TocCode3OnRequests := by
  intro s r rest hlen hc
  apply step_presenting_of_reference_eq
  by_cases h2 : r.pktLen < 2
  · rw [if_pos h2]
    exact reference_of_code_three_truncated s (by omega) hc
  · rw [if_neg h2]
    exact reference_of_code_three s (Nat.not_lt.mp h2) hc

/-- Settles O17: the references of codes 1 and 2 are one header of the TOC byte's configuration and stereo bit. -/
theorem codes1And2AnswerAlike : Obligations.Codes1And2AnswerAlike := by
  intro s cfg stereo r r' rest hlen hlen' hbyte0 hbyte0'
  have hc : codeField r.byte0 = 1#2 := by rw [hbyte0, codeField_tocByte]
  have hc' : codeField r'.byte0 = 2#2 := by rw [hbyte0', codeField_tocByte]
  apply exists_same_response
  rw [reference_of_code_one s (by omega) hc, reference_of_code_two s (by omega) hc', hbyte0, hbyte0']
  simp only [cfgField_tocByte, stereoField_tocByte]

/-! ### What a response depends on (R80) -/

/-- The reference reads byte 1 for code 3 with a length of at least 2 only, and then its count alone. -/
theorem decodeHeader_congr_byte1 (rom : Vector RomEntry 32) (bw : Vector Bandwidth 5) {n : Nat} {b0 b1 b1' : Byte}
    (h : 2 ≤ n → codeField b0 = 3#2 → countField b1 = countField b1') :
    decodeHeader rom bw n b0 b1 = decodeHeader rom bw n b0 b1' := by
  by_cases h2 : 2 ≤ n
  · obtain hc | hc | hc | hc := codeField_cases b0
    · simp [decodeHeader, hc]
    · simp [decodeHeader, hc]
    · simp [decodeHeader, hc]
    · exact decodeHeader_congr_countField rom bw n b0 (h h2 hc)
  · simp [decodeHeader, Nat.not_le.mp h2]

/-- Settles O20: without a TOC byte both references are `TooShort`; with one, the reference sees byte 0, the count where
it is read and the length up to 2. -/
theorem responseDependsOnlyOnMeaningfulInputs : Obligations.ResponseDependsOnlyOnMeaningfulInputs := by
  intro s r r' rest hlen hbyte0 hcount
  apply exists_same_response
  by_cases h0 : r.pktLen = 0
  · have h0' : r'.pktLen = 0 := by omega
    rw [reference_of_pktLen_eq_zero s h0, reference_of_pktLen_eq_zero s h0']
  · have hb0 : r.byte0 = r'.byte0 := hbyte0 (by omega)
    calc s.reference r
      _ = decodeHeader s.configRom s.bandwidthTable r.pktLen r.byte0 r'.byte1 :=
        decodeHeader_congr_byte1 _ _ fun h2 => hcount (Nat.min_eq_right h2)
      _ = decodeHeader s.configRom s.bandwidthTable r'.pktLen r.byte0 r'.byte1 :=
        decodeHeader_congr_pktLen _ _ _ _ hlen
      _ = s.reference r' := by rw [hb0, State.reference]

/-! ### What holds of a success (R82) -/

section Success

variable {s : State} {r : Request} {h : Header}

theorem pktLen_ne_zero_of_reference_ok (hok : s.reference r = .ok h) : r.pktLen ≠ 0 := by
  intro h0
  cases (reference_of_pktLen_eq_zero s h0).symm.trans hok

theorem two_le_pktLen_of_reference_ok (hok : s.reference r = .ok h) (hc : codeField r.byte0 = 3#2) :
    2 ≤ r.pktLen := by
  have h0 : r.pktLen ≠ 0 := pktLen_ne_zero_of_reference_ok hok
  have h1 : r.pktLen ≠ 1 := by
    intro h1
    cases (reference_of_code_three_truncated s h1 hc).symm.trans hok
  omega

/-- Of a success: the configuration and the stereo flag are those of byte 0, and there is a frame. -/
theorem header_of_reference_ok (hok : s.reference r = .ok h) :
    h.numFrames ≠ 0#6 ∧ h.config = s.romRead (cfgField r.byte0) ∧ h.stereo = stereoField r.byte0 := by
  obtain ⟨e, he⟩ | ⟨n, hn, hheader⟩ := reference_cases s r
  · cases he.symm.trans hok
  · cases hheader.symm.trans hok
    exact ⟨hn, rfl, rfl⟩

theorem numFrames_of_code_zero (hok : s.reference r = .ok h) (hc : codeField r.byte0 = 0#2) : h.numFrames = 1#6 := by
  cases (reference_of_code_zero s (pktLen_ne_zero_of_reference_ok hok) hc).symm.trans hok
  rfl

theorem numFrames_of_code_one_or_two (hok : s.reference r = .ok h)
    (hc : codeField r.byte0 = 1#2 ∨ codeField r.byte0 = 2#2) : h.numFrames = 2#6 := by
  have h0 : r.pktLen ≠ 0 := pktLen_ne_zero_of_reference_ok hok
  obtain hc | hc := hc
  · cases (reference_of_code_one s h0 hc).symm.trans hok
    rfl
  · cases (reference_of_code_two s h0 hc).symm.trans hok
    rfl

theorem numFrames_of_code_three (hok : s.reference r = .ok h) (hc : codeField r.byte0 = 3#2) :
    h.numFrames = countField r.byte1 := by
  have href := reference_of_code_three s (two_le_pktLen_of_reference_ok hok hc) hc
  split at href
  · cases href.symm.trans hok
  · cases href.symm.trans hok
    rfl

end Success

/-- Settles O26: the response read off the next state is the reference's, and a success of the reference is known by
code. -/
theorem successLaws : Obligations.SuccessLaws := by
  intro s t r rest h hstep hlast
  obtain ⟨hok, -⟩ := eq_answered_of_step_presenting hstep hlast
  obtain ⟨hn, hconfig, hstereo⟩ := header_of_reference_ok hok
  obtain ⟨hn1, hn63⟩ := numFrames_bounds hn
  exact ⟨hn1, numFrames_of_code_zero hok, numFrames_of_code_one_or_two hok,
    fun hc => ⟨numFrames_of_code_three hok hc, hn1, hn63⟩, hconfig, hstereo⟩

/-! ### The ports (R79) -/

theorem ofBool_eq_one_iff (b : Bool) : BitVec.ofBool b = 1#1 ↔ b = true := by
  cases b <;> decide

/-- Settles O40: after the step the ports are those of the response given (`State.answered_outputs`). -/
theorem portsShowTheResponse : Obligations.PortsShowTheResponse := by
  intro s t r rest a hstep hlast
  obtain ⟨-, rfl⟩ := eq_answered_of_step_presenting hstep hlast
  rw [State.answered_outputs]
  refine ⟨?_, ?_, ?_⟩
  · rintro h rfl
    exact ⟨h.ports, rfl, rfl, rfl, rfl, rfl, rfl, rfl, ofBool_eq_one_iff h.stereo, toNat_fullDuration h⟩
  · rintro rfl
    rfl
  · rintro rfl
    rfl

end Sys2Proof.Proofs
end

