-- ==== Sys2Proof/Proofs/Exceptions.lean ====
section
/-! PROOFS. The two errors of 60_exceptions.md and their causes (R89, R90, R91). -/

namespace Sys2Proof.Proofs

open Machine

/-- The condition on a request under which an error is its response (60_exceptions.md R89, R90); `reference_eq_err_iff`
ties it to the reference. -/
def ErrorCause (r : Request) : DecodeError → Prop
  | .tooShort => r.pktLen = 0 ∨ (r.pktLen = 1 ∧ codeField r.byte0 = 3#2)
  | .invalidFrameCount => 2 ≤ r.pktLen ∧ codeField r.byte0 = 3#2 ∧ countField r.byte1 = 0#6

section Causes

variable {s : State} {r : Request} {e : DecodeError}

theorem reference_of_errorCause (h : ErrorCause r e) : s.reference r = .err e := by
  cases e with
  | tooShort =>
    obtain h0 | ⟨h1, hc⟩ := h
    · exact reference_of_pktLen_eq_zero s h0
    · exact reference_of_code_three_truncated s h1 hc
  | invalidFrameCount =>
    obtain ⟨h2, hc, hn⟩ := h
    rw [reference_of_code_three s h2 hc, if_pos hn]

/-- With a TOC byte only code 3 can fail (41_toc_decode.md R73 to R75 give the other codes a header). -/
theorem codeField_eq_three_of_reference_err (h0 : r.pktLen ≠ 0) (h : s.reference r = .err e) :
    codeField r.byte0 = 3#2 := by
  obtain hc | hc | hc | hc := codeField_cases r.byte0
  · cases (reference_of_code_zero s h0 hc).symm.trans h
  · cases (reference_of_code_one s h0 hc).symm.trans h
  · cases (reference_of_code_two s h0 hc).symm.trans h
  · exact hc

/-- The lengths 0, 1 and 2 or more can each fail in one way only (60_exceptions.md R91). -/
theorem errorCause_of_reference_err (h : s.reference r = .err e) : ErrorCause r e := by
  by_cases h0 : r.pktLen = 0
  · cases (reference_of_pktLen_eq_zero s h0).symm.trans h
    exact .inl h0
  have hc : codeField r.byte0 = 3#2 := codeField_eq_three_of_reference_err h0 h
  by_cases h1 : r.pktLen = 1
  · cases (reference_of_code_three_truncated s h1 hc).symm.trans h
    exact .inr ⟨h1, hc⟩
  have h2 : 2 ≤ r.pktLen := by omega
  rw [reference_of_code_three s h2 hc] at h
  split at h
  next hn =>
    cases h
    exact ⟨h2, hc, hn⟩
  next => cases h

theorem reference_eq_err_iff : s.reference r = .err e ↔ ErrorCause r e :=
  ⟨errorCause_of_reference_err, reference_of_errorCause⟩

end Causes

/-- The response of a step on a request is `a` exactly when the reference's is. -/
theorem step_presenting_eq_answered_iff {s : State} {r : Request} {rest : List Request} {a : Response} :
    step (s.presenting r rest) = .next (s.answered rest a) ↔ s.reference r = a := by
  rw [step_presenting, Host.Outcome.next.injEq, answered_inj]

/-- Settles O27: the two equivalences are the two cases of `ErrorCause`. -/
theorem errorCauses : Obligations.ErrorCauses := fun _ _ _ =>
  ⟨step_presenting_eq_answered_iff.trans (reference_eq_err_iff (e := .tooShort)),
    step_presenting_eq_answered_iff.trans (reference_eq_err_iff (e := .invalidFrameCount))⟩

end Sys2Proof.Proofs
end

