-- ==== Sys2Proof/Proofs/Presented.lean ====
section
/-! PROOFS. Steps by what the host presents (log entry 2): the bits of a table row, and nothing. -/

namespace Sys2Proof.Proofs

open Machine

/-! ### The bytes of a packet that the host lays out -/

@[simp] theorem byte0_ofBytes (b0 : Byte) (tail : List Byte) : (Request.ofBytes (b0 :: tail)).byte0 = b0 :=
  read_packetFrom 0 (b0 :: tail) 0

@[simp] theorem byte1_ofBytes (b0 b1 : Byte) (tail : List Byte) : (Request.ofBytes (b0 :: b1 :: tail)).byte1 = b1 :=
  read_packetFrom 0 (b0 :: b1 :: tail) 1

@[simp] theorem pktLen_ofBytes (bytes : List Byte) : (Request.ofBytes bytes).pktLen = bytes.length := rfl

/-! ### The fetch loses nothing that the decoder reads -/

/-- For a code other than 3 the instruction does not depend on what follows the TOC byte (30_encoding.md R49). -/
theorem exists_forall_decode_of_code_ne_three {b0 : Byte} (hc : codeField b0 ≠ 3#2) :
    ∃ i : Instr, ∀ tail : List Byte, decode (b0 :: tail) = .instr i tail := by
  obtain h | h | h | h := codeField_cases b0
  · exact ⟨_, fun tail => decode_of_code_zero tail h⟩
  · exact ⟨_, fun tail => decode_of_code_one tail h⟩
  · exact ⟨_, fun tail => decode_of_code_two tail h⟩
  · exact absurd h hc

/-- Of a packet that holds the longest header, the bytes fetched (20_memory.md R36) decode to what the whole packet
decodes to: for code 3 both header bytes are fetched, and for the other codes the TOC byte decides alone. -/
theorem exists_decode_fetch_ofBytes {b0 b1 : Byte} {tail after : List Byte} {i : Instr}
    (h : decode (b0 :: b1 :: tail) = .instr i after) :
    ∃ after' : List Byte, decode (Request.ofBytes (b0 :: b1 :: tail)).fetch = .instr i after' := by
  by_cases hc : codeField b0 = 3#2
  · have hfetch : (Request.ofBytes (b0 :: b1 :: tail)).fetch = [b0, b1] := by
      rw [fetch_of_code_three (by simp) (by simpa using hc), byte0_ofBytes, byte1_ofBytes]
    cases (decode_of_code_three tail b1 hc).symm.trans h
    exact ⟨[], by rw [hfetch, decode_of_code_three [] b1 hc]⟩
  · have hfetch : (Request.ofBytes (b0 :: b1 :: tail)).fetch = [b0] := by
      rw [fetch_of_code_ne_three (by simp) (by simpa using hc), byte0_ofBytes]
    obtain ⟨j, hj⟩ := exists_forall_decode_of_code_ne_three hc
    cases (hj (b1 :: tail)).symm.trans h
    exact ⟨[], by rw [hfetch, hj]⟩

/-! ### The steps -/

theorem exists_decode_of_decodeTableWord {nbits w : Nat} {i : Instr} (h : decodeTableWord nbits w = some i) :
    ∃ after : List Byte, decode (tableBytes nbits w) = .instr i after := by
  rw [decodeTableWord] at h
  split at h
  next j after hdecode =>
    cases h
    exact ⟨after, hdecode⟩
  next => cases h

/-- Settles O9: the row's bytes are a packet of two bytes on the input ports, and its fetch decodes as the row does. -/
theorem fetchWordRunsNext : Obligations.FetchWordRunsNext := by
  intro s nbits w i h
  obtain ⟨_, hbytes⟩ := exists_decode_of_decodeTableWord h
  obtain ⟨after, hfetch⟩ := exists_decode_fetch_ofBytes hbytes
  exact stepRunsDecodedInstruction s (Request.ofBytes (tableBytes nbits w)) s.pending i after hfetch

/-- Settles O10: a step without a request idles. -/
theorem idleWithoutRequest : Obligations.IdleWithoutRequest := fun _ => step_of_pending_nil

end Sys2Proof.Proofs
end
